-- ==== Sys2Proof/Word.lean ====
section
/-! DEFINITION. The two word sizes of the PDE: a byte (00_scope R8) and a register word (10_state R14). -/

namespace Sys2Proof

/-- A byte, the only datum the engine moves (00_scope R8; 20_memory R42). -/
abbrev Byte := BitVec 8

/-- A 32-bit register word (10_state R14). -/
abbrev Word := BitVec 32

end Sys2Proof
end

