-- ==== Sys2Proof/Machine/Arith.lean ====
section
/-! DEFINITION. The operators of 00_scope R9: arithmetic is exact in ℤ, and only wrap8 narrows. -/

namespace Sys2Proof.Machine

/-- wrap8(v) = v mod 256, with the non-negative remainder, for every integer v (00_scope R9). -/
def wrap8 (v : Int) : Byte := BitVec.ofNat 8 (v % 256).toNat

/-- ceil_div(p, q), the least integer at or above p/q, for q > 0 (00_scope R9). -/
def ceilDiv (p q : Nat) : Nat := (p + q - 1) / q

/-- A byte, zero-extended into ℤ (30_encoding R63; 41_defilter R83). -/
def byteInt (b : Byte) : Int := (b.toNat : Int)

end Sys2Proof.Machine
end

