-- ==== Sys2Proof/Config.lean ====
section
/-! DEFINITION. The implementation parameters of 00_scope R6, and the free values: what the spec says is any byte. -/

namespace Sys2Proof

/-- The byte stores of the PDE: the three memories of 10_state R28 and the two row buffers of R27. -/
inductive Space where
  | inp | raw | pix | cur | prev
deriving DecidableEq, Repr

/-- AVG_SUM_WIDTH, the width of the Average filter's sum a + b: 9 by default, 8 the other reading (00_scope R6, D6). -/
inductive AvgSumWidth where
  | w8 | w9
deriving DecidableEq, Repr

/-- The number of bits AVG_SUM_WIDTH names. -/
def AvgSumWidth.bits : AvgSumWidth → Nat
  | .w8 => 8
  | .w9 => 9

/-- ASM_OOB_POLICY, what the assembler does when a sample read lies past the raw stream (00_scope R6, D9). -/
inductive OobPolicy where
  | rangeError | anyByte
deriving DecidableEq, Repr

/-- The implementation parameters of 00_scope R6: fixed for a machine, and no step writes them. -/
structure Params where
  inCap : Nat
  rawCap : Nat
  pixCap : Nat
  rowCap : Nat
  avgSumWidth : AvgSumWidth
  asmOobPolicy : OobPolicy
deriving DecidableEq, Repr

/-- The ranges of 00_scope R6. -/
abbrev Params.wf (p : Params) : Prop :=
  1 ≤ p.inCap ∧ p.inCap ≤ 2 ^ 32 - 1 ∧ 1 ≤ p.rawCap ∧ p.rawCap ≤ 2 ^ 32 - 1 ∧
  4 ≤ p.pixCap ∧ p.pixCap ≤ 2 ^ 32 - 1 ∧ 1 ≤ p.rowCap

/-- The capacity of a byte store, in bytes (10_state R27, R28). -/
def Params.capacity (p : Params) : Space → Nat
  | .inp => p.inCap
  | .raw => p.rawCap
  | .pix => p.pixCap
  | .cur => p.rowCap
  | .prev => p.rowCap

/-- The parameters that State.reset takes. The width and the policy are the spec's defaults (00_scope R6).
DESIGN CHOICE (log entry 1): the capacities are OPEN in the spec, and 256 is what its own vectors use
(95_test_vectors). Unsafe for a claim about State.reset alone. -/
def Params.ofVectors : Params :=
  { inCap := 256, rawCap := 256, pixCap := 256, rowCap := 256, avgSumWidth := .w9, asmOobPolicy := .rangeError }

/-- The n-th draw_byte(): any byte, with no law (00_scope R10; 93_implementation_defined section 2). No body: nothing
can be proved of its value (log entry 5). -/
opaque Config.drawByte (n : Nat) : Byte

/-- What a byte of a store holds that nothing has written since the reset numbered epoch: any byte (10_state R35;
70_reset R127). No body: nothing can be proved of its value (log entry 4). -/
opaque Config.unwritten (sp : Space) (epoch addr : Nat) : Byte

end Sys2Proof
end

