-- ==== Sys2Proof/Syntax.lean ====
section
/-! DEFINITION. The instructions (the filter types of 30_encoding R59), scanlines (R56) and listings (R69). -/

namespace Sys2Proof

/-- The five filter types (30_encoding R59), one constructor per row of the opcode table. A filter type has no
immediate, no register field and no modifier: its operands are implicit (R62, R63). -/
inductive Instr where
  | none   -- ft = 0x00, 41_defilter R87
  | sub    -- ft = 0x01, R88
  | up     -- ft = 0x02, R89
  | avg    -- ft = 0x03, R90
  | paeth  -- ft = 0x04, R92
deriving DecidableEq, Repr

/-- A scanline of the input stream: a filter type and the row's filtered data bytes (30_encoding R56). -/
structure Scanline where
  instr : Instr
  data : List Byte
deriving DecidableEq, Repr

/-- The first line of a listing: the configuration register values (30_encoding R69). -/
structure ImageLine where
  width : Nat
  height : Nat
  bitDepth : Nat
  colorType : Nat
deriving DecidableEq, Repr

/-- A line of a listing after the first (30_encoding R69). -/
inductive ListingLine where
  | row (sc : Scanline)                  -- <MNEMONIC> <hex byte> …
  | ft (v : Byte) (data : List Byte)     -- FT <hex byte> <hex byte> …
  | pad (bytes : List Byte)              -- .pad <hex byte> …
deriving DecidableEq, Repr

/-- A listing: the image line, then the others in order (30_encoding R69). -/
structure Listing where
  image : ImageLine
  lines : List ListingLine
deriving DecidableEq, Repr

end Sys2Proof
end

