-- ==== Sys2Proof/WellFormed.lean ====
section
/-! DEFINITION. Which instructions, scanlines and listings are well formed (30_encoding R56, R58, R69). -/

namespace Sys2Proof

/-- Every filter type is well formed: it has no operand field to be wrong (30_encoding R62). -/
def Instr.wf : Instr → Bool
  | .none => true
  | .sub => true
  | .up => true
  | .avg => true
  | .paeth => true

/-- A scanline of a job whose scan length is len carries exactly len data bytes (30_encoding R56, R58). -/
def Scanline.wf (len : Nat) (sc : Scanline) : Bool :=
  sc.instr.wf && sc.data.length == len

/-- A listing line is well formed for the scan length len: exactly len data bytes follow a mnemonic or an FT byte, and
pad bytes are free (30_encoding R69). -/
def ListingLine.wf (len : Nat) : ListingLine → Bool
  | .row sc => sc.wf len
  | .ft _ data => data.length == len
  | .pad _ => true

/-- The values of the image line fit the registers they are written to (10_state R14; 30_encoding R69). -/
def ImageLine.wf (im : ImageLine) : Bool :=
  decide (im.width < 2 ^ 32) && decide (im.height < 2 ^ 32) && decide (im.bitDepth < 2 ^ 8) && decide (im.colorType < 2 ^ 8)

/-- A listing is well formed for the scan length len (30_encoding R69). -/
def Listing.wf (len : Nat) (l : Listing) : Bool :=
  l.image.wf && l.lines.all (·.wf len)

end Sys2Proof
end

