-- ==== Sys2Proof/Decode.lean ====
section
/-! DEFINITION. Decoding, total on every byte (30_encoding R71), and the encoder written from the same table (R59). -/

namespace Sys2Proof

/-- What the filter-type byte decodes to: an instruction, or BadFilter of the byte (30_encoding R71). -/
inductive FilterDecode where
  | instr (i : Instr)
  | badFilter (v : Byte)
deriving DecidableEq, Repr

/-- 30_encoding R71: decoded on all 8 bits, every value from 0x05 to 0xFF is BadFilter (R60). -/
def decodeFilter (v : Byte) : FilterDecode :=
  match v.toNat with
  | 0 => .instr .none
  | 1 => .instr .sub
  | 2 => .instr .up
  | 3 => .instr .avg
  | 4 => .instr .paeth
  | _ => .badFilter v

/-- What the first bytes of a stream decode to, for a job's scan length. -/
inductive ScanDecode where
  | row (sc : Scanline) (rest : List Byte)
  | badFilter (v : Byte)
  | short
deriving DecidableEq, Repr

/-- Decode one scanline of scan length len: the row must be wholly in the input before its filter type is looked at
(41_defilter R80 before R81), the first byte is the filter type and the next len bytes are the data (30_encoding R56). -/
def decodeScanline (len : Nat) : List Byte → ScanDecode
  | [] => .short
  | ft :: rest =>
    if rest.length < len then .short
    else match decodeFilter ft with
      | .instr i => .row { instr := i, data := rest.take len } (rest.drop len)
      | .badFilter v => .badFilter v

/-- Decode the n scanlines of a stream, contiguous and in row order (30_encoding R57); none if a row is refused. -/
def decodeRows (len : Nat) : Nat → List Byte → Option (List Scanline)
  | 0, _ => some []
  | n + 1, bytes =>
    match decodeScanline len bytes with
    | .row sc rest => (decodeRows len n rest).map (sc :: ·)
    | .badFilter _ => none
    | .short => none

/-- The w bits of an opcode-table row laid out as bytes, the first byte (bits 7 to 0) at the lowest address. -/
def tableBytes : Nat → Nat → List Byte
  | 0, _ => []
  | n + 1, w => BitVec.ofNat 8 w :: tableBytes n (w / 256)

/-- The bytes of a table word of nbits bits: the bits from nbits upwards are 0, and the filter-type byte is always
there. -/
def tableWordBytes (nbits w : Nat) : List Byte :=
  tableBytes (max 1 (nbits / 8)) (w % 2 ^ nbits)

/-- The instruction the decoder reads from a table word: its first byte is the filter type, and the data bytes, whatever
they are, are all legal (30_encoding R61). -/
def decodeTableWord (nbits w : Nat) : Option Instr :=
  let bytes := tableWordBytes nbits w
  match decodeScanline (bytes.length - 1) bytes with
  | .row sc _ => some sc.instr
  | .badFilter _ => none
  | .short => none

/-- The filter-type byte of each instruction (30_encoding R59). -/
def encodeFilter : Instr → Byte
  | .none => 0x00
  | .sub => 0x01
  | .up => 0x02
  | .avg => 0x03
  | .paeth => 0x04

/-- The bytes of a scanline: its filter type, then its data bytes (30_encoding R56). -/
def encode (sc : Scanline) : List Byte :=
  encodeFilter sc.instr :: sc.data

/-- The bytes of a sequence of scanlines, contiguous with no padding (30_encoding R57). -/
def encodeRows : List Scanline → List Byte
  | [] => []
  | sc :: rest => encode sc ++ encodeRows rest

end Sys2Proof
end

