-- ==== Sys2Proof/Machine/State.lean ====
section
/-! DEFINITION. The state of the PDE (10_state R13), as plain data, its reasons to stop, and the state after reset. -/

namespace Sys2Proof.Machine

/-- The bytes of one byte store that something has written since the last reset, addresses strictly rising. An address
that is not listed holds an unspecified byte (10_state R35), and `readByte` gives it the free value of its own
(log entry 4). -/
abbrev Memory := List Host.Cell

/-- STATUS.PHASE (10_state R17). -/
inductive Phase where
  | idle | defilter | assemble | done | error
deriving DecidableEq, Repr

/-- STATUS.ERR_CODE (10_state R18). -/
inductive ErrCode where
  | none | badFilter | unknownColorType | rangeDefilter | rangeAssemble | config
deriving DecidableEq, Repr

/-- The fields of the register file that hold something (10_state R14). CTRL.START is a command bit, not storage (R16),
and reserved fields read 0 (R15). -/
structure Regs where
  phase : Phase        -- STATUS.PHASE
  errCode : ErrCode    -- STATUS.ERR_CODE
  width : Word         -- WIDTH.VALUE (R20)
  height : Word        -- HEIGHT.VALUE (R21)
  bitDepth : Byte      -- BIT_DEPTH.VALUE (R22)
  colorType : Byte     -- COLOR_TYPE.VALUE (R23)
  inLen : Word         -- IN_LEN.VALUE (R24)
  errRow : Word        -- ERR_ROW.VALUE (R25)
  errValue : Byte      -- ERR_VALUE.VALUE (R26)
deriving DecidableEq, Repr

/-- SEQ.stage (10_state R29). -/
inductive Stage where
  | halt | check | rowFetch | recon | commit | asmCheck | pixel
deriving DecidableEq, Repr

/-- SEQ, the engine's position in a job (10_state R29): the row, the byte index and the pixel column are integers. -/
structure Sequencer where
  stage : Stage
  y : Nat
  i : Nat
  x : Nat
  ft : Byte
deriving DecidableEq, Repr

/-- The memories a host can address; CUR and PREV are not among them (10_state R27, R28; 20_memory R37). -/
inductive HostMem where
  | inp | raw | pix
deriving DecidableEq, Repr

/-- An access from outside: the host's register and memory accesses, each with its width in bytes so that the widths
20_memory R40 refuses can be written down, and the platform's reset (70_reset R127). -/
inductive HostAccess where
  | readReg (off bytes : Nat)
  | writeReg (off bytes : Nat) (w : Word)
  | readMem (m : HostMem) (addr bytes : Nat)
  | writeMem (m : HostMem) (addr bytes : Nat) (v : Byte)
  | reset
deriving DecidableEq, Repr

/-- Which agent moves (10_state R13): the engine takes one step of R31, or one access from outside happens. -/
inductive Turn where
  | engine
  | host (a : HostAccess)
deriving DecidableEq, Repr

/-- The state of the PDE: REG, SEQ, the three memories and the two row buffers of 10_state R13, the implementation
parameters of 00_scope R6 (no step writes them), and four fields of the MODEL'S OWN: the counters of free values taken
(`draws`) and of platform resets (`epoch`), what the last host read returned (`hostData`), and which agents move next
(`agenda`; when it is empty the engine moves). -/
structure State where
  params : Params
  reg : Regs
  seq : Sequencer
  inp : Memory
  raw : Memory
  pix : Memory
  cur : Memory
  prev : Memory
  draws : Nat
  epoch : Nat
  hostData : Word
  agenda : List Turn
deriving DecidableEq, Repr

/-- Why the machine stops. No run of the PDE reaches any of them (log entry 11); the errors the SPEC describes
(60_exceptions R110) are next states with PHASE = ERROR. -/
inductive Fault where
  /-- Raised by an engine step after CHECK whose COLOR_TYPE has no bits per pixel (40_resolver R73 gives the resolver no
  value there). Safe: the machine stops where the spec says nothing. -/
  | noGeometry
  /-- Raised by an engine step that would access a byte store at or above its capacity (20_memory R37). Safe: the spec
  says that no such address exists, and that no job makes such an access (R45). -/
  | beyondCapacity (sp : Space)
  /-- Raised by a RECON step whose latched filter type is a reserved one (30_encoding R60). Safe: ROW_FETCH latches no
  such byte (41_defilter R81). -/
  | latchedReserved (ft : Byte)
deriving DecidableEq, Repr

/-- Why the model has no step. -/
inductive Refusal where
  /-- Raised by `exec` for an instruction that has no meaning yet; no arm of it does. Safe. -/
  | notModelled (mnemonic : String)
  /-- Raised by a host register access that is not one aligned 32-bit word at 0x00 to 0x3C (20_memory R40). Safe: the
  spec's model has no step for it. -/
  | registerAccess (off bytes : Nat)
  /-- Raised by a host memory access that is wider than one byte or outside the memory (20_memory R40). Safe: the spec's
  model has no step for it. -/
  | memoryAccess (m : HostMem) (addr bytes : Nat)
  /-- Raised by a host write of IN, RAW or PIX while BUSY (20_memory R48). Safe: the spec's model has no step for it. -/
  | hostWriteWhileBusy (m : HostMem) (addr : Nat)
  /-- Raised by a host write of RAW or PIX while not BUSY: the host can only read them (10_state R28; 20_memory R37, R40;
  log entry 12). Safe: no step. -/
  | hostWriteReadOnly (m : HostMem) (addr : Nat)
deriving DecidableEq, Repr

/-- The register file after reset: every field 0, so PHASE = IDLE and ERR_CODE = NONE (10_state R14, R35). -/
def Regs.reset : Regs :=
  { phase := .idle, errCode := .none, width := 0, height := 0, bitDepth := 0, colorType := 0, inLen := 0,
    errRow := 0, errValue := 0 }

/-- SEQ after reset: stage HALT (10_state R35). DESIGN CHOICE (log entry 3): the spec leaves y, i, x and ft unspecified
and the model names 0; unsafe, though no rule reads them before a job writes them. -/
def Sequencer.reset : Sequencer :=
  { stage := .halt, y := 0, i := 0, x := 0, ft := 0 }

/-- A machine with the parameters p right after power-on reset (70_reset R127): every memory lists nothing, so each of
its bytes is a free value. -/
def State.resetWith (p : Params) : State :=
  { params := p, reg := Regs.reset, seq := Sequencer.reset, inp := [], raw := [], pix := [], cur := [], prev := [],
    draws := 0, epoch := 0, hostData := 0, agenda := [] }

/-- The machine right after reset, with the parameters of log entries 1 and 2. -/
def State.reset : State := State.resetWith Params.ofVectors

end Sys2Proof.Machine
end

