-- ==== Sys2Proof/Machine/Flags.lean ====
section
/-! DEFINITION. The PDE has no flags but STATUS (10_state R30): its two fields' codes, its word, and BUSY. -/

namespace Sys2Proof.Machine

/-- The code of a job phase (10_state R17). -/
def phaseCode : Phase → BitVec 3
  | .idle => 0
  | .defilter => 1
  | .assemble => 2
  | .done => 3
  | .error => 4

/-- The code of a job's outcome (10_state R18). -/
def errorCode : ErrCode → BitVec 4
  | .none => 0
  | .badFilter => 1
  | .unknownColorType => 2
  | .rangeDefilter => 3
  | .rangeAssemble => 4
  | .config => 5

/-- The STATUS word: PHASE at [2:0], ERR_CODE at [11:8], every other bit 0 (10_state R14). -/
def statusWord (r : Regs) : Word :=
  (phaseCode r.phase).setWidth 32 ||| ((errorCode r.errCode).setWidth 32 <<< 8)

/-- BUSY is PHASE ∈ {1, 2} (10_state R17). -/
def busy (r : Regs) : Bool :=
  match r.phase with
  | .idle => false
  | .defilter => true
  | .assemble => true
  | .done => false
  | .error => false

end Sys2Proof.Machine
end

