-- ==== Sys2Proof/Machine/Ops.lean ====
section
/-! DEFINITION. The named operations over memory and registers, raising an error (the PDE's trap entry, 60_exceptions
R113), START (the only way on after one, R117) and reset (70_reset R127). -/

namespace Sys2Proof.Machine

/-- The byte something has written at an address, if anything has. -/
def Memory.find : Memory → Nat → Option Byte
  | [], _ => none
  | (k, v) :: rest, a => if k = a then some v else Memory.find rest a

/-- Store a byte, keeping the addresses strictly rising. -/
def Memory.write : Memory → Nat → Byte → Memory
  | [], a, b => [(a, b)]
  | (k, v) :: rest, a, b =>
    if a < k then (a, b) :: (k, v) :: rest
    else if a = k then (a, b) :: rest
    else (k, v) :: Memory.write rest a b

/-- Store bytes at increasing addresses from a base. -/
def Memory.writeList : Memory → Nat → List Byte → Memory
  | m, _, [] => m
  | m, a, b :: rest => Memory.writeList (Memory.write m a b) (a + 1) rest

/-- The canonical form: addresses strictly rising (an unlisted address reads as a free value, so no entry equals it). -/
abbrev Memory.wf (m : Memory) : Prop := m.Pairwise (fun p q => p.1 < q.1)

/-- Every listed address exists: it is below the capacity (20_memory R37). -/
abbrev Memory.below (cap : Nat) (m : Memory) : Prop := ∀ p ∈ m, p.1 < cap

/-- The contents of a byte store. -/
def memOf (sp : Space) (s : State) : Memory :=
  match sp with
  | .inp => s.inp
  | .raw => s.raw
  | .pix => s.pix
  | .cur => s.cur
  | .prev => s.prev

/-- The state with a byte store's contents replaced. -/
def setMem (sp : Space) (m : Memory) (s : State) : State :=
  match sp with
  | .inp => { s with inp := m }
  | .raw => { s with raw := m }
  | .pix => { s with pix := m }
  | .cur => { s with cur := m }
  | .prev => { s with prev := m }

/-- MemRead(M, addr, 1), and CUR[i] and PREV[i] (00_scope R10): the byte written there, or, where nothing has been
written since the last reset, the free value of that address (10_state R35; log entry 4). A read changes nothing
(20_memory R42). -/
def readByte (sp : Space) (a : Nat) (s : State) : Byte :=
  match Memory.find (memOf sp s) a with
  | some b => b
  | none => Config.unwritten sp s.epoch a

/-- MemWrite(M, addr, 1, v), and CUR[i] <- v (00_scope R10). -/
def writeByte (sp : Space) (a : Nat) (b : Byte) (s : State) : State :=
  setMem sp (Memory.write (memOf sp s) a b) s

/-- n bytes at increasing addresses from a base. -/
def readBytes (sp : Space) (a : Nat) : Nat → State → List Byte
  | 0, _ => []
  | n + 1, s => readByte sp a s :: readBytes sp (a + 1) n s

/-- Store bytes at increasing addresses from a base. -/
def writeBytes (sp : Space) (a : Nat) (bs : List Byte) (s : State) : State :=
  setMem sp (Memory.writeList (memOf sp s) a bs) s

/-- draw_byte() (00_scope R10): the next free byte, each drawn once (log entry 5). -/
def drawByte (s : State) : Byte × State :=
  (Config.drawByte s.draws, { s with draws := s.draws + 1 })

/-- raise E(row, value) (60_exceptions R113): ERR_CODE, ERR_ROW, ERR_VALUE, PHASE = ERROR and SEQ.stage = HALT, and
nothing else. -/
def raiseError (e : ErrCode) (row : Nat) (value : Byte) (s : State) : State :=
  { s with
    reg := { s.reg with errCode := e, errRow := BitVec.ofNat 32 row, errValue := value, phase := .error },
    seq := { s.seq with stage := .halt } }

/-- The START command (10_state R33): ignored while BUSY, else it clears the error fields, sets PHASE = DEFILTER and
SEQ.stage = CHECK, from IDLE, DONE and ERROR alike. It clears neither RAW nor PIX. -/
def startCommand (s : State) : State :=
  if busy s.reg then s
  else
    { s with
      reg := { s.reg with errCode := .none, errRow := 0, errValue := 0, phase := .defilter },
      seq := { s.seq with stage := .check } }

/-- Reset, at power-on and whenever the platform asserts it (70_reset R127): every register field 0, SEQ at HALT, and
unspecified bytes in every store (a new epoch's free values). It abandons a job. The counters of free values, the
host's side of reads and the agenda are not the PDE's and stay. -/
def platformReset (s : State) : State :=
  { s with
    reg := Regs.reset, seq := Sequencer.reset, inp := [], raw := [], pix := [], cur := [], prev := [],
    epoch := s.epoch + 1 }

end Sys2Proof.Machine
end

