-- ==== Sys2Proof/Machine/Resolver.lean ====
section
/-! DEFINITION. The Geometry/Format Resolver (40_resolver): a combinational function of the configuration registers. -/

namespace Sys2Proof.Machine

/-- bitsPerPixel(CT, D), with no value for an unknown colour type (40_resolver R72, R73). -/
def bitsPerPixel (ct d : Byte) : Option Nat :=
  match ct.toNat with
  | 0 => some d.toNat
  | 2 => some (3 * d.toNat)
  | 3 => some d.toNat
  | 4 => some (2 * d.toNat)
  | 6 => some (4 * d.toNat)
  | _ => none

/-- The bit depths of 30_encoding R66. -/
def legalDepth (d : Byte) : Bool :=
  match d.toNat with
  | 1 => true
  | 2 => true
  | 4 => true
  | 8 => true
  | 16 => true
  | _ => false

/-- What fixes a job's geometry: W, H and BITS (00_scope R11). Everything else is computed from them, exactly. -/
structure Geometry where
  width : Nat
  height : Nat
  bits : Nat
deriving DecidableEq, Repr

/-- BPP, bytes per pixel (40_resolver R74). -/
def bytesPerPixel (g : Geometry) : Nat := ceilDiv g.bits 8

/-- S, the row stride (40_resolver R75). -/
def rowStride (g : Geometry) : Nat := 1 + ceilDiv (g.bits * g.width) 8

/-- L = S − 1, the scan length (40_resolver R76). -/
def scanLength (g : Geometry) : Nat := rowStride g - 1

/-- RAWN = H·L, the raw stream length (40_resolver R77). -/
def rawLength (g : Geometry) : Nat := g.height * scanLength g

/-- N = W·H, the pixel count (40_resolver R77). -/
def pixelCount (g : Geometry) : Nat := g.width * g.height

/-- The geometry the configuration registers give (10_state R36), none for an unknown colour type. -/
def geometry (r : Regs) : Option Geometry :=
  match bitsPerPixel r.colorType r.bitDepth with
  | none => none
  | some bits => some { width := r.width.toNat, height := r.height.toNat, bits := bits }

end Sys2Proof.Machine
end

