-- ==== Sys2Proof/Machine/Operands.lean ====
section
/-! DEFINITION. The implicit operands of a reconstruction (30_encoding R63). -/

namespace Sys2Proof.Machine

/-- The four operands of data byte i: the filtered byte x, and the left, above and upper-left neighbours a, b, c. -/
structure RowOperands where
  x : Byte
  a : Byte
  b : Byte
  c : Byte
deriving DecidableEq, Repr

/-- The operands of byte i for a pixel of bpp bytes (30_encoding R63): the neighbours are bpp bytes to the left, and
a and c are 0 for i < bpp. -/
def rowOperands (bpp i : Nat) (s : State) : RowOperands :=
  { x := readByte .cur i s
    a := if bpp ≤ i then readByte .cur (i - bpp) s else 0
    b := readByte .prev i s
    c := if bpp ≤ i then readByte .prev (i - bpp) s else 0 }

end Sys2Proof.Machine
end

