-- ==== Sys2Proof/Machine/Assembler.lean ====
section
/-! DEFINITION. The Pixel Assembler (42_assembler): ASM_CHECK (R101) and PIXEL (R102, R103). -/

namespace Sys2Proof.Machine

/-- The two tests of ASM_CHECK (42_assembler R101): true when the assembler may run. -/
def assemblerFits (policy : OobPolicy) (g : Geometry) : Bool :=
  let bpp : Int := bytesPerPixel g
  let n : Int := pixelCount g
  let rawn : Int := rawLength g
  !(decide (bpp * n > rawn)) &&
    match policy with
    | .rangeError => !(decide (bpp * (n - 1) + 3 > rawn))
    | .anyByte => true

/-- ASM_CHECK (42_assembler R101; 10_state R31), before any PIX write. -/
def asmCheckStep (s : State) : Host.Outcome State Fault Refusal :=
  match geometry s.reg with
  | none => .fault .noGeometry
  | some g =>
    if assemblerFits s.params.asmOobPolicy g then
      .next { s with seq := { s.seq with y := 0, x := 0, stage := .pixel } }
    else .next (raiseError .rangeAssemble 0 0 s)

/-- rawByte(k): RAW[k] inside the raw stream, and one draw_byte() past it (42_assembler R102, R103). -/
def rawByte (g : Geometry) (k : Nat) (s : State) : Byte × State :=
  if k < rawLength g then (readByte .raw k s, s) else drawByte s

/-- The end of a PIXEL step (10_state R31): the columns of a row, then the next row, then DONE. -/
def advancePixel (g : Geometry) (s : State) : State :=
  let s1 := { s with seq := { s.seq with x := s.seq.x + 1 } }
  let s2 := if s1.seq.x = g.width then { s1 with seq := { s1.seq with x := 0, y := s1.seq.y + 1 } } else s1
  if s2.seq.y = g.height then
    { s2 with reg := { s2.reg with phase := .done }, seq := { s2.seq with stage := .halt } }
  else s2

/-- PIXEL for pixel (SEQ.x, SEQ.y) (42_assembler R102): the first three bytes at the raw sample offset become R, G and
B, and alpha is 255 (R107). -/
def pixelStep (s : State) : Host.Outcome State Fault Refusal :=
  match geometry s.reg with
  | none => .fault .noGeometry
  | some g =>
    let o := bytesPerPixel g * (g.width * s.seq.y + s.seq.x)
    let p := 4 * (s.seq.y * g.width + s.seq.x)
    if s.params.rawCap < min (o + 3) (rawLength g) then .fault (.beyondCapacity .raw)
    else if s.params.pixCap < p + 4 then .fault (.beyondCapacity .pix)
    else
      let r := rawByte g o s
      let gr := rawByte g (o + 1) r.2
      let b := rawByte g (o + 2) gr.2
      .next (advancePixel g (writeBytes .pix p [r.1, gr.1, b.1, 255] b.2))

end Sys2Proof.Machine
end

