-- ==== Sys2Proof/Machine/Predictors.lean ====
section
/-! DEFINITION. The predictors of 41_defilter R84, R90 and R91, computed in ℤ. -/

namespace Sys2Proof.Machine

/-- The Average predictor: floor(((a + b) mod 2^AVG_SUM_WIDTH) / 2) (41_defilter R90). -/
def avgPredictor (aw : AvgSumWidth) (a b : Byte) : Int :=
  ((byteInt a + byteInt b) % 2 ^ aw.bits) / 2

/-- The Paeth predictor function, ties in the order a, b, c (41_defilter R91). -/
def paeth (a b c : Byte) : Byte :=
  let pa := (byteInt b - byteInt c).natAbs
  let pb := (byteInt a - byteInt c).natAbs
  let pc := ((byteInt a - byteInt c) + (byteInt b - byteInt c)).natAbs
  if pa ≤ pb ∧ pa ≤ pc then a
  else if pb ≤ pc then b
  else c

/-- The predictor by filter type, the table of 41_defilter R84 (used by the job function of R86). -/
def predictor (aw : AvgSumWidth) (ft : Instr) (a b c : Byte) : Int :=
  match ft with
  | .none => 0
  | .sub => byteInt a
  | .up => byteInt b
  | .avg => avgPredictor aw a b
  | .paeth => byteInt (paeth a b c)

end Sys2Proof.Machine
end

