-- ==== Sys2Proof/Machine/Filters.lean ====
section
/-! DEFINITION. The five filter types (41_defilter R87 to R92), each as its RECON step: one byte of the row. -/

namespace Sys2Proof.Machine

/-- The end of a RECON step (10_state R31): SEQ.i advances, and the last byte of the row leads to COMMIT. -/
def advanceRecon (len : Nat) (s : State) : State :=
  { s with
    seq := { s.seq with i := s.seq.i + 1, stage := if s.seq.i + 1 = len then .commit else s.seq.stage } }

/-- The RECON step of byte SEQ.i (41_defilter R82; 10_state R31), for a predictor of the byte's operands:
CUR[i] <- wrap8(x + pred), computed in ℤ (R83), then SEQ.i advances. No flag is written. -/
def reconStep (pred : RowOperands → Int) (s : State) : Host.Outcome State Fault Refusal :=
  match geometry s.reg with
  | none => .fault .noGeometry
  | some g =>
    if s.seq.i < s.params.rowCap then
      let o := rowOperands (bytesPerPixel g) s.seq.i s
      .next (advanceRecon (scanLength g) (writeByte .cur s.seq.i (wrap8 (byteInt o.x + pred o)) s))
    else .fault (.beyondCapacity .cur)

/-- NONE (41_defilter R87): CUR[i] <- wrap8(x + 0). -/
def execNone (s : State) : Host.Outcome State Fault Refusal :=
  reconStep (fun _ => 0) s

/-- SUB (41_defilter R88): CUR[i] <- wrap8(x + a), and a is 0 for i < BPP. -/
def execSub (s : State) : Host.Outcome State Fault Refusal :=
  reconStep (fun o => byteInt o.a) s

/-- UP (41_defilter R89): CUR[i] <- wrap8(x + b). -/
def execUp (s : State) : Host.Outcome State Fault Refusal :=
  reconStep (fun o => byteInt o.b) s

/-- AVG (41_defilter R90): CUR[i] <- wrap8(x + floor(((a + b) mod 2^AVG_SUM_WIDTH) / 2)). -/
def execAvg (s : State) : Host.Outcome State Fault Refusal :=
  reconStep (fun o => avgPredictor s.params.avgSumWidth o.a o.b) s

/-- PAETH (41_defilter R92): CUR[i] <- wrap8(x + paeth(a, b, c)). -/
def execPaeth (s : State) : Host.Outcome State Fault Refusal :=
  reconStep (fun o => byteInt (paeth o.a o.b o.c)) s

end Sys2Proof.Machine
end

