-- ==== Sys2Proof/Machine/Defilter.lean ====
section
/-! DEFINITION. The row machinery of the Scanline Defilter Engine: ROW_FETCH (41_defilter R80, R81) and COMMIT (R85). -/

namespace Sys2Proof.Machine

/-- ROW_FETCH for row SEQ.y (41_defilter R80, R81; 10_state R31): the range check, then the filter-type check, then the
load of CUR and the latch of SEQ.ft. -/
def rowFetchStep (s : State) : Host.Outcome State Fault Refusal :=
  match geometry s.reg with
  | none => .fault .noGeometry
  | some g =>
    let base := s.seq.y * rowStride g
    if s.reg.inLen.toNat < base + rowStride g then .next (raiseError .rangeDefilter s.seq.y 0 s)
    else if s.params.inCap < base + rowStride g then .fault (.beyondCapacity .inp)
    else
      let ft := readByte .inp base s
      match decodeFilter ft with
      | .badFilter v => .next (raiseError .badFilter s.seq.y v s)
      | .instr _ =>
        if s.params.rowCap < scanLength g then .fault (.beyondCapacity .cur)
        else
          let s' := writeBytes .cur 0 (readBytes .inp (base + 1) (scanLength g) s) s
          .next { s' with seq := { s'.seq with ft := ft, i := 0, stage := .recon } }

/-- The end of a COMMIT step (10_state R31): SEQ.y advances; after the last row the assembler stage begins. -/
def advanceCommit (height : Nat) (s : State) : State :=
  if s.seq.y + 1 = height then
    { s with
      reg := { s.reg with phase := .assemble }, seq := { s.seq with y := s.seq.y + 1, stage := .asmCheck } }
  else { s with seq := { s.seq with y := s.seq.y + 1, stage := .rowFetch } }

/-- COMMIT for row SEQ.y (41_defilter R85; 10_state R31): the row goes to RAW at y·L, and PREV takes a copy of CUR. -/
def commitStep (s : State) : Host.Outcome State Fault Refusal :=
  match geometry s.reg with
  | none => .fault .noGeometry
  | some g =>
    let len := scanLength g
    if s.params.rowCap < len then .fault (.beyondCapacity .cur)
    else if s.params.rawCap < s.seq.y * len + len then .fault (.beyondCapacity .raw)
    else
      let row := readBytes .cur 0 len s
      .next (advanceCommit g.height (writeBytes .prev 0 row (writeBytes .raw (s.seq.y * len) row s)))

/-- A one-row image of one truecolor pixel (W = 1, H = 1, D = 8, CT = 2: S = 4, L = 3, BPP = 3) at the point where its
row has just been fetched: the scanline in IN, its filter type latched, its data in CUR, PREV all zero, and the engine
to move. If the filter type is reserved the row has not been fetched yet. It stands for what START, CHECK and ROW_FETCH
leave (log entry 10). -/
def placeScanline (bytes : List Byte) (s : State) : State :=
  let ft := bytes.headD 0
  let data := (bytes.tail ++ [0, 0, 0]).take 3
  let s' := writeBytes .prev 0 [0, 0, 0] (writeBytes .inp 0 (ft :: data) s)
  let s'' :=
    { s' with
      reg := { s'.reg with
        phase := .defilter, errCode := .none, errRow := 0, errValue := 0,
        width := 1, height := 1, bitDepth := 8, colorType := 2, inLen := 4 }
      agenda := [] }
  match decodeFilter ft with
  | .instr _ => { writeBytes .cur 0 data s'' with seq := { s''.seq with stage := .recon, y := 0, i := 0, ft := ft } }
  | .badFilter _ => { s'' with seq := { s''.seq with stage := .rowFetch, y := 0 } }

end Sys2Proof.Machine
end

