-- ==== Sys2Proof/Machine/Dispatch.lean ====
section
/-! DEFINITION. exec: the meaning of each filter type, one arm per constructor. -/

namespace Sys2Proof.Machine

/-- One RECON step of the row whose filter type is i (10_state R31; 41_defilter R82). -/
def exec (i : Instr) (s : State) : Host.Outcome State Fault Refusal :=
  match i with
  | .none => Sys2Proof.Machine.execNone s
  | .sub => Sys2Proof.Machine.execSub s
  | .up => Sys2Proof.Machine.execUp s
  | .avg => Sys2Proof.Machine.execAvg s
  | .paeth => Sys2Proof.Machine.execPaeth s

end Sys2Proof.Machine
end

