-- ==== Sys2Proof/Machine/Engine.lean ====
section
/-! DEFINITION. The start checks (60_exceptions R111), CHECK, and the engine's step by stage (10_state R31). -/

namespace Sys2Proof.Machine

/-- The start checks, in the order of 60_exceptions R111: the first that fails gives the error and ERR_VALUE (ERR_ROW is
0 for each). All quantities are exact. -/
def startChecks (s : State) : Except (ErrCode × Byte) Geometry :=
  if s.reg.width = 0 then .error (.config, 0)
  else if s.reg.height = 0 then .error (.config, 0)
  else if legalDepth s.reg.bitDepth = false then .error (.config, 0)
  else if s.params.inCap < s.reg.inLen.toNat then .error (.config, 0)
  else match geometry s.reg with
    | none => .error (.unknownColorType, s.reg.colorType)
    | some g =>
      if s.params.rowCap < scanLength g then .error (.config, 0)
      else if s.params.rawCap < rawLength g then .error (.config, 0)
      else if s.params.pixCap < 4 * pixelCount g then .error (.config, 0)
      else .ok g

/-- CHECK (10_state R31): the start checks, then PREV[0..L−1] ← 0 and the first row. -/
def checkStep (s : State) : Host.Outcome State Fault Refusal :=
  match startChecks s with
  | .error e => .next (raiseError e.1 0 e.2 s)
  | .ok g =>
    let s' := writeBytes .prev 0 (List.replicate (scanLength g) 0) s
    .next { s' with seq := { s'.seq with y := 0, stage := .rowFetch } }

/-- RECON (10_state R31): the latched filter type decides what the step does. -/
def reconStageStep (s : State) : Host.Outcome State Fault Refusal :=
  match decodeFilter s.seq.ft with
  | .instr i => exec i s
  | .badFilter v => .fault (.latchedReserved v)

/-- One engine step, by SEQ.stage (10_state R31). In HALT there is no engine step: nothing changes (log entry 8). -/
def engineStep (s : State) : Host.Outcome State Fault Refusal :=
  match s.seq.stage with
  | .halt => .next s
  | .check => checkStep s
  | .rowFetch => rowFetchStep s
  | .recon => reconStageStep s
  | .commit => commitStep s
  | .asmCheck => asmCheckStep s
  | .pixel => pixelStep s

end Sys2Proof.Machine
end

