-- ==== Sys2Proof/Machine/HostPort.lean ====
section
/-! DEFINITION. What the outside can do: register accesses (10_state R14 to R16), memory accesses (20_memory R40, R48),
reset (70_reset R127), and the boot sequence (R130). -/

namespace Sys2Proof.Machine

/-- The word a host read of the register at a byte offset returns (10_state R14 to R16): CTRL, reserved fields and
reserved registers read 0. -/
def readRegister (off : Nat) (r : Regs) : Word :=
  match off with
  | 0x04 => statusWord r
  | 0x08 => r.width
  | 0x0C => r.height
  | 0x10 => r.bitDepth.setWidth 32
  | 0x14 => r.colorType.setWidth 32
  | 0x18 => r.inLen
  | 0x1C => r.errRow
  | 0x20 => r.errValue.setWidth 32
  | _ => 0

/-- A host write of a configuration register (10_state R14, R32): no effect while BUSY. -/
def writeConfig (f : Regs → Regs) (s : State) : State :=
  if busy s.reg then s else { s with reg := f s.reg }

/-- A host write of the register at a byte offset (10_state R14 to R16, R32, R33): bit 0 of CTRL is START; RO registers,
reserved registers and reserved fields ignore it. -/
def writeRegister (off : Nat) (w : Word) (s : State) : State :=
  match off with
  | 0x00 => if w.getLsbD 0 then startCommand s else s
  | 0x08 => writeConfig (fun r => { r with width := w }) s
  | 0x0C => writeConfig (fun r => { r with height := w }) s
  | 0x10 => writeConfig (fun r => { r with bitDepth := w.setWidth 8 }) s
  | 0x14 => writeConfig (fun r => { r with colorType := w.setWidth 8 }) s
  | 0x18 => writeConfig (fun r => { r with inLen := w }) s
  | _ => s

/-- A register access the model admits: an aligned 32-bit word at 0x00 to 0x3C (20_memory R40). -/
def admittedRegister (off bytes : Nat) : Bool :=
  decide (bytes = 4) && decide (off % 4 = 0) && decide (off ≤ 0x3C)

/-- The byte store a host address reaches (20_memory R37). -/
def hostSpace : HostMem → Space
  | .inp => .inp
  | .raw => .raw
  | .pix => .pix

/-- A memory access the model admits: one byte at a valid address (20_memory R40). -/
def admittedMemory (m : HostMem) (addr bytes : Nat) (s : State) : Bool :=
  decide (bytes = 1) && decide (addr < s.params.capacity (hostSpace m))

/-- What a host read of a memory byte returns, and the state after it (20_memory R48): while BUSY a read of RAW or PIX
is a draw_byte(), and any other read gives the byte at the address and changes nothing. -/
def readMemory (m : HostMem) (addr : Nat) (s : State) : Byte × State :=
  match m with
  | .inp => (readByte .inp addr s, s)
  | .raw => if busy s.reg then drawByte s else (readByte .raw addr s, s)
  | .pix => if busy s.reg then drawByte s else (readByte .pix addr s, s)

/-- One access from outside. What the model does not admit it refuses, by name (20_memory R40, R48). -/
def hostStep (a : HostAccess) (s : State) : Host.Outcome State Fault Refusal :=
  match a with
  | .readReg off bytes =>
    if admittedRegister off bytes then .next { s with hostData := readRegister off s.reg }
    else .refused (.registerAccess off bytes)
  | .writeReg off bytes w =>
    if admittedRegister off bytes then .next (writeRegister off w s)
    else .refused (.registerAccess off bytes)
  | .readMem m addr bytes =>
    if admittedMemory m addr bytes s then
      let r := readMemory m addr s
      .next { r.2 with hostData := r.1.setWidth 32 }
    else .refused (.memoryAccess m addr bytes)
  | .writeMem m addr bytes v =>
    if admittedMemory m addr bytes s then
      if busy s.reg then .refused (.hostWriteWhileBusy m addr)
      else match m with
        | .inp => .next (writeByte .inp addr v s)
        | .raw => .refused (.hostWriteReadOnly .raw addr)
        | .pix => .refused (.hostWriteReadOnly .pix addr)
    else .refused (.memoryAccess m addr bytes)
  | .reset => .next (platformReset s)

/-- A host transfer of several bytes into IN: single-byte writes at increasing addresses (20_memory R40). -/
def transferIn (addr : Nat) : List Byte → List Turn
  | [] => []
  | b :: rest => .host (.writeMem .inp addr 1 b) :: transferIn (addr + 1) rest

/-- A host transfer of n bytes out of a memory: single-byte reads at increasing addresses (20_memory R40). -/
def transferOut (m : HostMem) (addr : Nat) : Nat → List Turn
  | 0 => []
  | n + 1 => .host (.readMem m addr 1) :: transferOut m (addr + 1) n

/-- Steps 1 to 4 of the boot requirements (70_reset R130): the image's configuration, the stream in IN, IN_LEN, START. -/
def bootSequence (width height bitDepth colorType : Word) (stream : List Byte) : List Turn :=
  [.host (.writeReg 0x08 4 width), .host (.writeReg 0x0C 4 height), .host (.writeReg 0x10 4 bitDepth),
    .host (.writeReg 0x14 4 colorType)] ++
  transferIn 0 stream ++
  [.host (.writeReg 0x18 4 (BitVec.ofNat 32 stream.length)), .host (.writeReg 0x00 4 1)]

end Sys2Proof.Machine
end

