-- ==== Sys2Proof/Machine/Step.lean ====
section
/-! DEFINITION. One step of the machine: the agent whose turn it is moves (10_state R13). -/

namespace Sys2Proof.Machine

/-- One step. The head of the agenda says which agent moves; when the agenda is empty the engine does (log entry 6).
The engine takes the step of SEQ.stage (10_state R31): it fetches a row's instruction from IN in ROW_FETCH, and runs the
latched one, by exec, in RECON. -/
def step (s : State) : Host.Outcome State Fault Refusal :=
  match s.agenda with
  | [] => engineStep s
  | .engine :: rest => engineStep { s with agenda := rest }
  | .host a :: rest => hostStep a { s with agenda := rest }

/-- The state with an instruction placed so that the very next step runs it (log entry 10): its scanline in IN and, as
ROW_FETCH leaves it, in CUR and SEQ.ft, with the configuration a one-row job takes. -/
def State.withFetchWord (s : State) (nbits w : Nat) : State :=
  placeScanline (tableWordBytes nbits w) s

end Sys2Proof.Machine
end

