-- ==== Sys2Proof/Machine/Job.lean ====
section
/-! DEFINITION. The job function (41_defilter R86, 42_assembler R104), the normative level of 00_scope R7 for what the
host can observe, and the forward filter that R97 defines to state the inverse law. -/

namespace Sys2Proof.Machine

/-- The operand to the left in a row held as a list: row[i − bpp], or 0 for i < bpp (30_encoding R63). -/
def leftOf (bpp : Nat) (row : List Byte) (i : Nat) : Byte :=
  if bpp ≤ i then row.getD (i - bpp) 0 else 0

/-- The inner loop of 41_defilter R86 after k bytes, in ascending order and in place: cur is the row, of which the first
k bytes are reconstructed. -/
def reconBytes (aw : AvgSumWidth) (ft : Instr) (bpp : Nat) (prev : List Byte) : Nat → List Byte → List Byte
  | 0, cur => cur
  | k + 1, cur =>
    let row := reconBytes aw ft bpp prev k cur
    row.set k (wrap8 (byteInt (row.getD k 0) + predictor aw ft (leftOf bpp row k) (prev.getD k 0) (leftOf bpp prev k)))

/-- A row of filtered bytes reconstructed over the previous row (41_defilter R82, R86). -/
def reconRow (aw : AvgSumWidth) (ft : Instr) (bpp : Nat) (prev cur : List Byte) : List Byte :=
  reconBytes aw ft bpp prev cur.length cur

/-- The forward filter of 41_defilter R97, byte by byte over a row r of reconstructed bytes. It is no part of the PDE. -/
def forwardRow (aw : AvgSumWidth) (ft : Instr) (bpp : Nat) (prev row : List Byte) : List Byte :=
  (List.range row.length).map fun i =>
    wrap8 (byteInt (row.getD i 0) - predictor aw ft (leftOf bpp row i) (prev.getD i 0) (leftOf bpp prev i))

/-- What the defilter stage returns (41_defilter R86): RAW, and the error if the stage failed. -/
structure DefilterResult where
  error : Option (ErrCode × Nat × Byte)
  raw : Memory
deriving DecidableEq, Repr

/-- The row loop of 41_defilter R86 from row y on, with the given number of rows left: inp is the byte at an address of
IN. -/
def defilterRows (aw : AvgSumWidth) (g : Geometry) (inp : Nat → Byte) (inLen : Nat) :
    Nat → Nat → List Byte → Memory → DefilterResult
  | 0, _, _, raw => { error := none, raw := raw }
  | rows + 1, y, prev, raw =>
    if inLen < y * rowStride g + rowStride g then { error := some (.rangeDefilter, y, 0), raw := raw }
    else match decodeFilter (inp (y * rowStride g)) with
      | .badFilter v => { error := some (.badFilter, y, v), raw := raw }
      | .instr ft =>
        let filtered := (List.range (scanLength g)).map fun i => inp (y * rowStride g + 1 + i)
        let row := reconRow aw ft (bytesPerPixel g) prev filtered
        defilterRows aw g inp inLen rows (y + 1) row (Memory.writeList raw (y * scanLength g) row)

/-- The defilter stage of a job (41_defilter R86). -/
def defilterStage (g : Geometry) (s : State) : DefilterResult :=
  defilterRows s.params.avgSumWidth g (fun a => readByte .inp a s) s.reg.inLen.toNat g.height 0
    (List.replicate (scanLength g) 0) s.raw

/-- One sample of the assembler: the raw byte inside the stream, the next draw past it (42_assembler R103, R104). -/
def sample (g : Geometry) (raw : Nat → Byte) (k draws : Nat) : Byte × Nat :=
  if k < rawLength g then (raw k, draws) else (Config.drawByte draws, draws + 1)

/-- The column loop of 42_assembler R104 for row y from column x on: PIX and the draws taken. -/
def assembleColumns (g : Geometry) (raw : Nat → Byte) (y : Nat) : Nat → Nat → Memory × Nat → Memory × Nat
  | 0, _, acc => acc
  | cols + 1, x, acc =>
    let o := bytesPerPixel g * (g.width * y + x)
    let p := 4 * (y * g.width + x)
    let r := sample g raw o acc.2
    let gr := sample g raw (o + 1) r.2
    let b := sample g raw (o + 2) gr.2
    assembleColumns g raw y cols (x + 1) (Memory.writeList acc.1 p [r.1, gr.1, b.1, 255], b.2)

/-- The row loop of 42_assembler R104 from row y on. -/
def assembleRows (g : Geometry) (raw : Nat → Byte) : Nat → Nat → Memory × Nat → Memory × Nat
  | 0, _, acc => acc
  | rows + 1, y, acc => assembleRows g raw rows (y + 1) (assembleColumns g raw y g.width 0 acc)

/-- The result of a job (42_assembler R104), with the count of draws after it. -/
structure JobResult where
  phase : Phase
  errCode : ErrCode
  errRow : Nat
  errValue : Byte
  raw : Memory
  pix : Memory
  draws : Nat
deriving DecidableEq, Repr

/-- The job function (42_assembler R104), of the configuration registers, the parameters and the memories of s. -/
def jobFunction (s : State) : JobResult :=
  match startChecks s with
  | .error e =>
    { phase := .error, errCode := e.1, errRow := 0, errValue := e.2, raw := s.raw, pix := s.pix, draws := s.draws }
  | .ok g =>
    let d := defilterStage g s
    match d.error with
    | some (code, row, value) =>
      { phase := .error, errCode := code, errRow := row, errValue := value, raw := d.raw, pix := s.pix,
        draws := s.draws }
    | none =>
      if assemblerFits s.params.asmOobPolicy g then
        let out := assembleRows g (fun k => readByte .raw k (setMem .raw d.raw s)) g.height 0 (s.pix, s.draws)
        { phase := .done, errCode := .none, errRow := 0, errValue := 0, raw := d.raw, pix := out.1, draws := out.2 }
      else
        { phase := .error, errCode := .rangeAssemble, errRow := 0, errValue := 0, raw := d.raw, pix := s.pix,
          draws := s.draws }

/-- The number of engine steps of a complete job (70_reset R137). -/
def completeJobSteps (g : Geometry) : Nat :=
  1 + g.height * (scanLength g + 2) + 1 + pixelCount g

end Sys2Proof.Machine
end

