-- ==== Sys2Proof/Machine/Listing.lean ====
section
/-! DEFINITION. The listing syntax of 30_encoding R69: reading a listing's text, the IN bytes it assembles to, and the
host accesses that run it (70_reset R130). -/

namespace Sys2Proof.Machine

/-- The mnemonic of each filter type (30_encoding R59). -/
def mnemonicOf : Instr → List Char
  | .none => "NONE".toList
  | .sub => "SUB".toList
  | .up => "UP".toList
  | .avg => "AVG".toList
  | .paeth => "PAETH".toList

/-- A letter as a capital: mnemonics are case-insensitive (30_encoding R69). -/
def capital (c : Char) : Char :=
  if 97 ≤ c.toNat ∧ c.toNat ≤ 122 then Char.ofNat (c.toNat - 32) else c

/-- The filter type a mnemonic names (30_encoding R69). -/
def readMnemonic (word : List Char) : Option Instr :=
  [Instr.none, Instr.sub, Instr.up, Instr.avg, Instr.paeth].find? fun i => mnemonicOf i == word.map capital

/-- The value of a hexadecimal digit, of either case (00_scope R8). -/
def hexDigit (c : Char) : Option Nat :=
  if 48 ≤ c.toNat ∧ c.toNat ≤ 57 then some (c.toNat - 48)
  else if 65 ≤ c.toNat ∧ c.toNat ≤ 70 then some (c.toNat - 55)
  else if 97 ≤ c.toNat ∧ c.toNat ≤ 102 then some (c.toNat - 87)
  else none

/-- A hexadecimal pair (00_scope R8). -/
def readHexByte : List Char → Option Byte
  | [h, l] =>
    match hexDigit h, hexDigit l with
    | some vh, some vl => some (BitVec.ofNat 8 (16 * vh + vl))
    | _, _ => none
  | _ => none

/-- Hexadecimal pairs in increasing address order (00_scope R8). -/
def readHexBytes : List (List Char) → Option (List Byte)
  | [] => some []
  | w :: rest =>
    match readHexByte w, readHexBytes rest with
    | some b, some bs => some (b :: bs)
    | _, _ => none

/-- A decimal number, its digits read from the left onto an accumulator. -/
def readDecimalFrom (acc : Nat) : List Char → Option Nat
  | [] => some acc
  | c :: cs => if 48 ≤ c.toNat ∧ c.toNat ≤ 57 then readDecimalFrom (10 * acc + (c.toNat - 48)) cs else none

/-- A field of the image line, such as W=2: the name, then a decimal number of at least one digit. -/
def readField (name : List Char) (word : List Char) : Option Nat :=
  if word.take name.length = name ∧ name.length < word.length then readDecimalFrom 0 (word.drop name.length) else none

/-- Cut a text at every character that the test picks. -/
def splitAt (test : Char → Bool) : List Char → List (List Char)
  | [] => [[]]
  | c :: cs =>
    if test c then [] :: splitAt test cs
    else match splitAt test cs with
      | [] => [[c]]
      | w :: ws => (c :: w) :: ws

/-- The words of a line: a semicolon starts a comment that runs to the end of the line (30_encoding R69). -/
def lineWords (line : List Char) : List (List Char) :=
  (splitAt (fun c => c == ' ' || c == '\t' || c == '\r') (line.takeWhile (· != ';'))).filter (fun w => !w.isEmpty)

/-- The image line (30_encoding R69). -/
def readImageLine : List (List Char) → Option ImageLine
  | [d, w, h, b, c] =>
    if d = ".image".toList then
      match readField "W=".toList w, readField "H=".toList h, readField "D=".toList b, readField "CT=".toList c with
      | some vw, some vh, some vb, some vc => some { width := vw, height := vh, bitDepth := vb, colorType := vc }
      | _, _, _, _ => none
    else none
  | _ => none

/-- A line after the first: a scanline by its mnemonic, a scanline by its filter-type byte, or pad bytes (30_encoding
R69). -/
def readListingLine : List (List Char) → Option ListingLine
  | [] => none
  | w :: rest =>
    match readHexBytes rest with
    | none => none
    | some bytes =>
      if w = ".pad".toList then some (.pad bytes)
      else if w.map capital = "FT".toList then
        match bytes with
        | [] => none
        | v :: data => some (.ft v data)
      else match readMnemonic w with
        | some i => some (.row { instr := i, data := bytes })
        | none => none

/-- The lines after the first, all of them readable. -/
def readListingLines : List (List (List Char)) → Option (List ListingLine)
  | [] => some []
  | l :: rest =>
    match readListingLine l, readListingLines rest with
    | some x, some xs => some (x :: xs)
    | _, _ => none

/-- A listing's text (30_encoding R69). Lines that hold nothing but spaces and a comment are skipped (log entry 13). -/
def readListing (text : List Char) : Option Listing :=
  match ((splitAt (· == '\n') text).map lineWords).filter (fun ws => !ws.isEmpty) with
  | [] => none
  | first :: rest =>
    match readImageLine first, readListingLines rest with
    | some im, some ls => some { image := im, lines := ls }
    | _, _ => none

/-- The bytes of a line that is a scanline: its filter-type byte, then its data (30_encoding R69, R70). -/
def scanlineBytes : ListingLine → List Byte
  | .row sc => encode sc
  | .ft v data => v :: data
  | .pad _ => []

/-- The bytes of a line that is a pad. -/
def padBytes : ListingLine → List Byte
  | .row _ => []
  | .ft _ _ => []
  | .pad bytes => bytes

/-- The IN bytes of a listing: each scanline's bytes in line order, then the pad bytes (30_encoding R69). IN_LEN is
their number. -/
def assembleListing (l : Listing) : List Byte :=
  l.lines.flatMap scanlineBytes ++ l.lines.flatMap padBytes

/-- The host accesses that run a listing (30_encoding R69; 70_reset R130). -/
def bootListing (l : Listing) : List Turn :=
  bootSequence (BitVec.ofNat 32 l.image.width) (BitVec.ofNat 32 l.image.height) (BitVec.ofNat 32 l.image.bitDepth)
    (BitVec.ofNat 32 l.image.colorType) (assembleListing l)

end Sys2Proof.Machine
end

