-- ==== Sys2Proof/Safety.lean ====
section
/-! DEFINITION. What the claims speak of: the next state of a step, the invariant of the PDE, and states that agree on
what a job may read. -/

namespace Sys2Proof.Machine

/-- The next state of an outcome, if it is one. -/
def nextState : Host.Outcome State Fault Refusal → Option State
  | .next t => some t
  | .fault _ => none
  | .refused _ => none

/-- A byte store in canonical form, holding nothing at an address that does not exist (20_memory R37). -/
abbrev storeOk (sp : Space) (s : State) : Prop :=
  Memory.wf (memOf sp s) ∧ Memory.below (s.params.capacity sp) (memOf sp s)

/-- The stages in which each phase stands (10_state R31): a job runs exactly in DEFILTER and ASSEMBLE (R17). -/
def phaseMatches (ph : Phase) (st : Stage) : Bool :=
  match ph, st with
  | .idle, .halt => true
  | .done, .halt => true
  | .error, .halt => true
  | .defilter, .check => true
  | .defilter, .rowFetch => true
  | .defilter, .recon => true
  | .defilter, .commit => true
  | .assemble, .asmCheck => true
  | .assemble, .pixel => true
  | _, _ => false

/-- What ERR_ROW and ERR_VALUE hold under each code (10_state R18, R25, R26): the code is not NONE exactly in ERROR,
and a row or a value is recorded only for the errors that have one. -/
def errorsMatch (r : Regs) : Bool :=
  match r.errCode with
  | .none => decide (r.phase ≠ .error) && decide (r.errRow = 0) && decide (r.errValue = 0)
  | .badFilter => decide (r.phase = .error) && decide (5 ≤ r.errValue.toNat)
  | .unknownColorType => decide (r.phase = .error) && decide (r.errRow = 0)
  | .rangeDefilter => decide (r.phase = .error) && decide (r.errValue = 0)
  | .rangeAssemble => decide (r.phase = .error) && decide (r.errRow = 0) && decide (r.errValue = 0)
  | .config => decide (r.phase = .error) && decide (r.errRow = 0) && decide (r.errValue = 0)

/-- A filter type that ROW_FETCH may latch (41_defilter R81). -/
def legalFilter (ft : Byte) : Bool := decide (ft.toNat < 5)

/-- Where SEQ stands inside a job of geometry g (10_state R29, R31). -/
def positionFits (policy : OobPolicy) (g : Geometry) (q : Sequencer) : Bool :=
  match q.stage with
  | .halt => true
  | .check => true
  | .rowFetch => decide (q.y < g.height)
  | .recon => decide (q.y < g.height) && decide (q.i < scanLength g) && legalFilter q.ft
  | .commit => decide (q.y < g.height) && decide (q.i = scanLength g) && legalFilter q.ft
  | .asmCheck => decide (q.y = g.height)
  | .pixel => decide (q.y < g.height) && decide (q.x < g.width) && assemblerFits policy g

/-- After CHECK a job's configuration has passed the start checks (60_exceptions R111; 10_state R32), and SEQ stands
inside it. -/
def jobFits (s : State) : Bool :=
  match s.seq.stage with
  | .halt => true
  | .check => true
  | _ =>
    match startChecks s with
    | .error _ => false
    | .ok g => positionFits s.params.asmOobPolicy g s.seq

/-- The invariant: the parameters are in range (00_scope R6), every byte store is canonical and within its capacity, the
phase and the stage agree, the error fields agree with the code, and a running job fits. -/
structure Inv (s : State) : Prop where
  params : s.params.wf
  stores : ∀ sp : Space, storeOk sp s
  phase : phaseMatches s.reg.phase s.seq.stage = true
  errors : errorsMatch s.reg = true
  job : jobFits s = true

/-- The engine moves next: it is its turn on the agenda, or nothing is on the agenda. -/
def engineTurn (s : State) : Bool :=
  match s.agenda with
  | [] => true
  | .engine :: _ => true
  | .host _ :: _ => false

/-- The state in which the agent whose turn it is moves: the same but for the turn taken off the agenda. -/
def afterTurn (s : State) : State := { s with agenda := s.agenda.tail }

/-- Two states that are the same but for the bytes of IN at addresses from n up. -/
def agreeBelow (n : Nat) (s t : State) : Prop :=
  t = { s with inp := t.inp } ∧ ∀ a, a < n → readByte .inp a t = readByte .inp a s

/-- A state that has just accepted a START (10_state R33): CHECK comes next, and only the engine moves. -/
def justStarted (s : State) : Bool :=
  decide (s.seq.stage = .check) && decide (s.reg.phase = .defilter) && decide (s.reg.errCode = .none) &&
  decide (s.reg.errRow = 0) && decide (s.reg.errValue = 0) && decide (s.agenda = [])

/-- A halted state t shows the result r of the job that s started (42_assembler R104; 70_reset R138): the status and
error registers, RAW and PIX; IN, the configuration and the parameters are those of s. -/
def showsResult (s t : State) (r : JobResult) : Prop :=
  t.seq.stage = .halt ∧ t.reg.phase = r.phase ∧ t.reg.errCode = r.errCode ∧ t.reg.errRow.toNat = r.errRow ∧
  t.reg.errValue = r.errValue ∧ t.raw = r.raw ∧ t.pix = r.pix ∧ t.draws = r.draws ∧ t.inp = s.inp ∧
  t.params = s.params ∧
  { t.reg with phase := s.reg.phase, errCode := s.reg.errCode, errRow := s.reg.errRow, errValue := s.reg.errValue } = s.reg

end Sys2Proof.Machine
end

