-- ==== Sys2Proof/Certificates/Slice0/Obligations.lean ====
section
/-! DEFINITION. The statements about the model, each with the rule of spec/ it formalises. -/

open Sys2Proof Sys2Proof.Machine

/-! ## Reset and the register window -/

/-- 10_state R35, 70_reset R127: right after reset every register reads 0 (PHASE = IDLE, ERR_CODE = NONE), the sequencer
is at HALT, and every byte of every store is a free value of its own (the model's form of an unspecified byte, log entry
4), for every choice of the parameters. -/
def Obligations.ResetClearsRegistersAndFreesMemory : Prop :=
  State.reset = State.resetWith State.reset.params ∧
  ∀ p : Params,
    (∀ off, readRegister off (State.resetWith p).reg = 0) ∧
    (State.resetWith p).reg.phase = .idle ∧ (State.resetWith p).reg.errCode = .none ∧
    (State.resetWith p).seq.stage = .halt ∧
    ∀ (sp : Space) (a : Nat), readByte sp a (State.resetWith p) = Config.unwritten sp 0 a

/-- 70_reset R127: a reset asserted at any moment leaves every register 0 and SEQ at HALT, every byte of every store a
fresh free value, and no further step of an abandoned job runs. The parameters stay. That the agenda delivers the reset
and that a new epoch names the new bytes are the model's form (log entries 4 and 6). -/
def Obligations.AssertedResetAbandonsTheJob : Prop :=
  ∀ (s : State) (rest : List Turn), s.agenda = .host .reset :: rest →
    ∃ t, step s = .next t ∧ (∀ off, readRegister off t.reg = 0) ∧ t.reg.phase = .idle ∧ t.reg.errCode = .none ∧
      t.seq.stage = .halt ∧ (∀ (sp : Space) (a : Nat), readByte sp a t = Config.unwritten sp (s.epoch + 1) a) ∧
      t.params = s.params ∧ t.agenda = rest ∧ engineStep t = .next t

/-- 10_state R14 to R18: what a host read of each word of the register window returns, in every state, STATUS with the
numbers of R17 and R18, and BUSY exactly where PHASE reads 1 or 2; it changes nothing but what the host holds (hostData,
the model's own field, log entry 7). -/
def Obligations.RegisterReadsFollowTheMap : Prop :=
  ∀ (s : State) (rest : List Turn) (off : Nat), s.agenda = .host (.readReg off 4) :: rest → off % 4 = 0 → off ≤ 0x3C →
    ∃ w : Word, step s = .next { s with agenda := rest, hostData := w } ∧
      (off = 0x00 → w = 0) ∧
      (off = 0x04 →
        (w.extractLsb' 0 3).toNat = (match s.reg.phase with
          | .idle => 0 | .defilter => 1 | .assemble => 2 | .done => 3 | .error => 4) ∧
        w.extractLsb' 3 5 = 0 ∧
        (w.extractLsb' 8 4).toNat = (match s.reg.errCode with
          | .none => 0 | .badFilter => 1 | .unknownColorType => 2 | .rangeDefilter => 3 | .rangeAssemble => 4
          | .config => 5) ∧
        w.extractLsb' 12 20 = 0 ∧
        (busy s.reg = true ↔ w.extractLsb' 0 3 = 1 ∨ w.extractLsb' 0 3 = 2)) ∧
      (off = 0x08 → w = s.reg.width) ∧ (off = 0x0C → w = s.reg.height) ∧
      (off = 0x10 → w.extractLsb' 0 8 = s.reg.bitDepth ∧ w.extractLsb' 8 24 = 0) ∧
      (off = 0x14 → w.extractLsb' 0 8 = s.reg.colorType ∧ w.extractLsb' 8 24 = 0) ∧
      (off = 0x18 → w = s.reg.inLen) ∧ (off = 0x1C → w = s.reg.errRow) ∧
      (off = 0x20 → w.extractLsb' 0 8 = s.reg.errValue ∧ w.extractLsb' 8 24 = 0) ∧
      (0x24 ≤ off → w = 0)

/-- 10_state R14, R20 to R24: while not BUSY, a configuration register reads back what was written to it (its low byte,
for the 8-bit fields, the reserved bits staying 0), every other register reads as before, and nothing else changes. -/
def Obligations.IdleConfigurationWriteReadsBack : Prop :=
  ∀ (s : State) (rest : List Turn) (off : Nat) (w : Word), s.agenda = .host (.writeReg off 4 w) :: rest →
    busy s.reg = false → off ∈ [0x08, 0x0C, 0x10, 0x14, 0x18] →
    ∃ t, step s = .next t ∧
      readRegister off t.reg = (if off = 0x10 ∨ off = 0x14 then w &&& 0xFF else w) ∧
      (∀ off', off' ≠ off → readRegister off' t.reg = readRegister off' s.reg) ∧
      t = { s with agenda := rest, reg := t.reg }

/-- 10_state R32 and R33: while BUSY a write of any register, the configuration registers and START among them, has no
effect. -/
def Obligations.BusyRegisterWritesHaveNoEffect : Prop :=
  ∀ (s : State) (rest : List Turn) (off : Nat) (w : Word), s.agenda = .host (.writeReg off 4 w) :: rest →
    busy s.reg = true → off % 4 = 0 → off ≤ 0x3C → step s = .next { s with agenda := rest }

/-- 10_state R15, R16: a write of STATUS, ERR_ROW, ERR_VALUE or a reserved register, or of CTRL with bit 0 clear, has no
effect, in every state. -/
def Obligations.ReadOnlyAndReservedWritesHaveNoEffect : Prop :=
  ∀ (s : State) (rest : List Turn) (off : Nat) (w : Word), s.agenda = .host (.writeReg off 4 w) :: rest →
    off % 4 = 0 → off ≤ 0x3C →
    (off = 0x04 ∨ off = 0x1C ∨ 0x20 ≤ off ∨ (off = 0x00 ∧ w.getLsbD 0 = false)) →
    step s = .next { s with agenda := rest }

/-- 10_state R33: a write of CTRL with bit 0 set while not BUSY (IDLE, DONE and ERROR alike) clears the error fields,
sets PHASE = DEFILTER and SEQ.stage = CHECK, and nothing else: RAW and PIX stay. While BUSY it has no effect. -/
def Obligations.StartClearsErrorsAndBeginsCheck : Prop :=
  ∀ (s : State) (rest : List Turn) (w : Word), s.agenda = .host (.writeReg 0x00 4 w) :: rest → w.getLsbD 0 = true →
    (busy s.reg = true → step s = .next { s with agenda := rest }) ∧
    (busy s.reg = false →
      step s = .next { s with
        agenda := rest
        reg := { s.reg with errCode := .none, errRow := 0, errValue := 0, phase := .defilter }
        seq := { s.seq with stage := .check } })

/-- 20_memory R40: what the model admits as a host access is one aligned 32-bit word of the register window, or one byte
at a valid address; any other width, alignment or address is refused, under the model's names (log entry 12). -/
def Obligations.UnadmittedHostAccessIsRefused : Prop :=
  ∀ (s : State) (rest : List Turn),
    (∀ off bytes, s.agenda = .host (.readReg off bytes) :: rest → ¬ (bytes = 4 ∧ off % 4 = 0 ∧ off ≤ 0x3C) →
      step s = .refused (.registerAccess off bytes)) ∧
    (∀ off bytes w, s.agenda = .host (.writeReg off bytes w) :: rest → ¬ (bytes = 4 ∧ off % 4 = 0 ∧ off ≤ 0x3C) →
      step s = .refused (.registerAccess off bytes)) ∧
    (∀ m addr bytes, s.agenda = .host (.readMem m addr bytes) :: rest →
      ¬ (bytes = 1 ∧ addr < s.params.capacity (hostSpace m)) → step s = .refused (.memoryAccess m addr bytes)) ∧
    (∀ m addr bytes v, s.agenda = .host (.writeMem m addr bytes v) :: rest →
      ¬ (bytes = 1 ∧ addr < s.params.capacity (hostSpace m)) → step s = .refused (.memoryAccess m addr bytes))

/-- 20_memory R48, while BUSY: a read of RAW or PIX is a draw, a read of IN gives IN's byte, and a write of any memory
is refused. The counter of draws is the model's form of draw_byte() (log entry 5). -/
def Obligations.BusyHostMemoryAccess : Prop :=
  ∀ (s : State) (rest : List Turn) (m : HostMem) (addr : Nat), busy s.reg = true →
    addr < s.params.capacity (hostSpace m) →
    (s.agenda = .host (.readMem m addr 1) :: rest →
      (m = .inp → step s = .next { s with agenda := rest, hostData := (readByte .inp addr s).setWidth 32 }) ∧
      (m ≠ .inp → step s = .next
        { s with agenda := rest, draws := s.draws + 1, hostData := (Config.drawByte s.draws).setWidth 32 })) ∧
    (∀ v, s.agenda = .host (.writeMem m addr 1 v) :: rest → step s = .refused (.hostWriteWhileBusy m addr))

/-- 20_memory R48, while not BUSY: a read gives the addressed byte and changes nothing else; a write of IN stores the
byte there and changes no other address and no other state; RAW and PIX the host can only read (10_state R28), and a
write of them is refused, the model's choice (log entry 12). -/
def Obligations.IdleHostMemoryAccess : Prop :=
  ∀ (s : State) (rest : List Turn) (m : HostMem) (addr : Nat), busy s.reg = false →
    addr < s.params.capacity (hostSpace m) →
    (s.agenda = .host (.readMem m addr 1) :: rest →
      step s = .next { s with agenda := rest, hostData := (readByte (hostSpace m) addr s).setWidth 32 }) ∧
    (∀ v, s.agenda = .host (.writeMem .inp addr 1 v) :: rest → m = .inp →
      ∃ t, step s = .next t ∧ t = { s with agenda := rest, inp := t.inp } ∧ readByte .inp addr t = v ∧
        ∀ a, a ≠ addr → readByte .inp a t = readByte .inp a s) ∧
    (∀ v, m ≠ .inp → s.agenda = .host (.writeMem m addr 1 v) :: rest → step s = .refused (.hostWriteReadOnly m addr))

/-- 20_memory R40: a host transfer of several bytes into IN is its single-byte writes at increasing addresses; while not
BUSY and within the capacity every one of them happens, and together they store the bytes. The agenda that lines them up
is the model's form (log entry 6). -/
def Obligations.HostTransferStoresItsBytes : Prop :=
  ∀ (s : State) (rest : List Turn) (addr : Nat) (bs : List Byte), s.agenda = transferIn addr bs ++ rest →
    busy s.reg = false → addr + bs.length ≤ s.params.inCap →
    ∃ t : State, Host.Core.run Sys2Proof.core bs.length s = .next t ∧ t = { s with agenda := rest, inp := t.inp } ∧
      (∀ k, k < bs.length → readByte .inp (addr + k) t = bs.getD k 0) ∧
      ∀ a, (a < addr ∨ addr + bs.length ≤ a) → readByte .inp a t = readByte .inp a s

/-- 20_memory R49: once PHASE is DONE or ERROR with the engine halted, no turn but a START or a reset changes PHASE, the
error fields, RAW, PIX or the engine's halt, and a host read of RAW or PIX returns the byte the job left. -/
def Obligations.ResultsStayUntilStartOrReset : Prop :=
  ∀ s t : State, (s.reg.phase = .done ∨ s.reg.phase = .error) → s.seq.stage = .halt →
    (∀ w, s.agenda.head? = some (.host (.writeReg 0x00 4 w)) → w.getLsbD 0 = false) →
    s.agenda.head? ≠ some (.host .reset) → step s = .next t →
    t.seq = s.seq ∧ t.reg.phase = s.reg.phase ∧ t.reg.errCode = s.reg.errCode ∧ t.reg.errRow = s.reg.errRow ∧
    t.reg.errValue = s.reg.errValue ∧ t.raw = s.raw ∧ t.pix = s.pix ∧
    (∀ addr bytes, s.agenda.head? = some (.host (.readMem .raw addr bytes)) →
      t.hostData = (readByte .raw addr s).setWidth 32) ∧
    (∀ addr bytes, s.agenda.head? = some (.host (.readMem .pix addr bytes)) →
      t.hostData = (readByte .pix addr s).setWidth 32)

/-! ## Encoding -/

/-- 30_encoding R71 (and R59, R60): decode is total, the five codes are decoded on all 8 bits, and every value from 0x05
to 0xFF is BadFilter of itself. -/
def Obligations.FilterByteDecodesByTheTable : Prop :=
  ∀ v : Byte,
    decodeFilter v =
      if v = 0x00 then .instr .none
      else if v = 0x01 then .instr .sub
      else if v = 0x02 then .instr .up
      else if v = 0x03 then .instr .avg
      else if v = 0x04 then .instr .paeth
      else .badFilter v

/-- Scanlines written out from the spec's own programs (95_test_vectors P1, P2) decode to what they stand for. -/
def Obligations.SpecScanlinesDecode : Prop :=
  decodeScanline 6 [0x00, 0x0a, 0x14, 0x1e, 0x28, 0x32, 0x3c] =
    .row { instr := .none, data := [0x0a, 0x14, 0x1e, 0x28, 0x32, 0x3c] } [] ∧
  decodeScanline 6 [0x01, 0xff, 0x10, 0x20, 0x02, 0xe0, 0xc0] =
    .row { instr := .sub, data := [0xff, 0x10, 0x20, 0x02, 0xe0, 0xc0] } [] ∧
  decodeScanline 6 [0x02, 0x01, 0xef, 0x60, 0x7e, 0x11, 0x22] =
    .row { instr := .up, data := [0x01, 0xef, 0x60, 0x7e, 0x11, 0x22] } [] ∧
  decodeScanline 6 [0x03, 0xc8, 0xe5, 0xba, 0xf3, 0x00, 0x81] =
    .row { instr := .avg, data := [0xc8, 0xe5, 0xba, 0xf3, 0x00, 0x81] } [] ∧
  decodeScanline 6 [0x04, 0x42, 0xb0, 0x24, 0x05, 0x05, 0x05] =
    .row { instr := .paeth, data := [0x42, 0xb0, 0x24, 0x05, 0x05, 0x05] } [] ∧
  decodeScanline 3 [0x05, 0x04, 0x05, 0x06] = .badFilter 0x05

/-- 30_encoding R56, R57, R59: decoding the bytes of any sequence of well-formed scanlines, whatever bytes follow them,
gives those scanlines back, with every filter type and every data byte. -/
def Obligations.ScanlineStreamRoundTrip : Prop :=
  ∀ (len : Nat) (rows : List Scanline) (trailing : List Byte), (∀ sc ∈ rows, sc.wf len = true) →
    decodeRows len rows.length (encodeRows rows ++ trailing) = some rows

/-- 30_encoding R56, R71: each scanline has one encoding: whatever decodes to a scanline is that scanline's bytes
followed by the rest, and the scanline is well formed. -/
def Obligations.DecodedScanlineHasOneEncoding : Prop :=
  ∀ (len : Nat) (bytes rest : List Byte) (sc : Scanline), decodeScanline len bytes = .row sc rest →
    bytes = encode sc ++ rest ∧ sc.wf len = true

/-- 30_encoding R69, R70: a listing of scanlines by mnemonic with all its pads after them, and the same scanlines by their
filter bytes under FT with all the pads before them, assemble to the same bytes, which decode to the scanlines. R69 places
the pad bytes after the last scanline; that pad LINES may stand before the scanlines is the model's reading (log entry 13,
DEDUCED). -/
def Obligations.ListingAssemblesToItsScanlines : Prop :=
  ∀ (im : ImageLine) (len : Nat) (rows : List Scanline) (pads : List (List Byte)),
    (∀ sc ∈ rows, sc.wf len = true) →
    assembleListing { image := im, lines := rows.map .row ++ pads.map .pad } =
      assembleListing
        { image := im, lines := pads.map .pad ++ rows.map (fun sc => .ft (encodeFilter sc.instr) sc.data) } ∧
    decodeRows len rows.length
      (assembleListing { image := im, lines := rows.map .row ++ pads.map .pad }) = some rows

/-! ## Geometry -/

/-- 40_resolver R72: bits per pixel of the five colour types, and no value for any other (R73); with a legal depth it
lies in [1, 64]. -/
def Obligations.ResolverMapsColorTypes : Prop :=
  ∀ ct d : Byte,
    (bitsPerPixel ct d =
      if ct = 0 ∨ ct = 3 then some d.toNat
      else if ct = 2 then some (3 * d.toNat)
      else if ct = 4 then some (2 * d.toNat)
      else if ct = 6 then some (4 * d.toNat)
      else none) ∧
    (d ∈ ([1, 2, 4, 8, 16] : List Byte) → ∀ b, bitsPerPixel ct d = some b → 1 ≤ b ∧ b ≤ 64)

/-- 40_resolver R74, R76: for a legal depth and a width of at least 1, BPP is the ceiling of BITS/8 and one of 1, 2,
3, 4, 6, 8, BPP = 1 when BITS ≤ 8, L = S − 1 is the ceiling of BITS·W/8, and a row holds at least one byte and at
least one pixel's worth of bytes. That L is at least 1 and at least BPP the spec marks as its own derivation. -/
def Obligations.GeometryRanges : Prop :=
  ∀ (r : Regs) (g : Geometry), geometry r = some g → legalDepth r.bitDepth = true → 1 ≤ g.width →
    g.bits ≤ 8 * bytesPerPixel g ∧ 8 * bytesPerPixel g < g.bits + 8 ∧
    bytesPerPixel g ∈ [1, 2, 3, 4, 6, 8] ∧ (g.bits ≤ 8 → bytesPerPixel g = 1) ∧
    rowStride g = 1 + scanLength g ∧ g.bits * g.width ≤ 8 * scanLength g ∧ 8 * scanLength g < g.bits * g.width + 8 ∧
    1 ≤ scanLength g ∧ bytesPerPixel g ≤ scanLength g

/-- 40_resolver R78: L = BPP·W holds exactly when BITS is a multiple of 8, or when W·(8·BPP − BITS) < 8. The spec
marks this as its own derivation. -/
def Obligations.RowsArePixelAlignedExactlyWhen : Prop :=
  ∀ (r : Regs) (g : Geometry), geometry r = some g → legalDepth r.bitDepth = true → 1 ≤ g.width →
    (scanLength g = bytesPerPixel g * g.width ↔
      (g.bits % 8 = 0 ∨ g.width * (8 * bytesPerPixel g - g.bits) < 8))

/-- 42_assembler R105: RAWN ≤ BPP·N always, and the assembler's tests pass exactly when L = BPP·W, and under RangeError
also BPP ≥ 3. The spec marks this as its own derivation. -/
def Obligations.AssemblerAcceptsExactlyWhen : Prop :=
  ∀ (r : Regs) (g : Geometry), geometry r = some g → legalDepth r.bitDepth = true → 1 ≤ g.width → 1 ≤ g.height →
    rawLength g ≤ bytesPerPixel g * pixelCount g ∧
    (assemblerFits .anyByte g = true ↔ scanLength g = bytesPerPixel g * g.width) ∧
    (assemblerFits .rangeError g = true ↔ 3 ≤ bytesPerPixel g ∧ scanLength g = bytesPerPixel g * g.width) ∧
    (3 ≤ bytesPerPixel g → (scanLength g = bytesPerPixel g * g.width ↔ g.bits % 8 = 0))

/-! ## Starting a job -/

/-- 60_exceptions R111: the start checks in their order; the first that fails raises its error, with ERR_ROW = 0, and
ERR_VALUE = CT for an unknown colour type. -/
def Obligations.StartChecksFailInOrder : Prop :=
  ∀ s : State, engineTurn s = true → s.seq.stage = .check →
    let legal := s.reg.width ≠ 0 ∧ s.reg.height ≠ 0 ∧ s.reg.bitDepth ∈ ([1, 2, 4, 8, 16] : List Byte) ∧
      s.reg.inLen.toNat ≤ s.params.inCap
    (¬ legal → step s = .next (raiseError .config 0 0 (afterTurn s))) ∧
    (legal → s.reg.colorType ∉ ([0, 2, 3, 4, 6] : List Byte) →
      step s = .next (raiseError .unknownColorType 0 s.reg.colorType (afterTurn s))) ∧
    (legal → ∀ g, geometry s.reg = some g →
      (s.params.rowCap < scanLength g ∨ s.params.rawCap < rawLength g ∨ s.params.pixCap < 4 * pixelCount g) →
      step s = .next (raiseError .config 0 0 (afterTurn s)))

/-- 60_exceptions R111, 10_state R31 (CHECK), 70_reset R128: a configuration that fails none of the eight start checks, each
at its boundary included, passes CHECK: it has the geometry of its registers, startChecks accepts it, PREV[0..L−1] is
zeroed, the fetch of row 0 comes next, and nothing else changes. -/
def Obligations.CheckZeroesThePreviousRow : Prop :=
  ∀ s : State, engineTurn s = true → s.seq.stage = .check →
    s.reg.width ≠ 0 → s.reg.height ≠ 0 → s.reg.bitDepth ∈ ([1, 2, 4, 8, 16] : List Byte) →
    s.reg.inLen.toNat ≤ s.params.inCap → s.reg.colorType ∈ ([0, 2, 3, 4, 6] : List Byte) →
    ∃ g, geometry s.reg = some g ∧ g.width = s.reg.width.toNat ∧ g.height = s.reg.height.toNat ∧
      bitsPerPixel s.reg.colorType s.reg.bitDepth = some g.bits ∧
      (scanLength g ≤ s.params.rowCap → rawLength g ≤ s.params.rawCap → 4 * pixelCount g ≤ s.params.pixCap →
        startChecks s = .ok g ∧
        ∃ t, step s = .next t ∧ t.seq = { s.seq with y := 0, stage := .rowFetch } ∧
          (∀ i, i < scanLength g → readByte .prev i t = 0) ∧
          (∀ i, scanLength g ≤ i → readByte .prev i t = readByte .prev i s) ∧
          t = { afterTurn s with prev := t.prev, seq := t.seq })

/-- 60_exceptions R113: raising an error sets ERR_CODE, ERR_ROW, ERR_VALUE, PHASE = ERROR and SEQ.stage = HALT, and
nothing else; the engine then stays halted until the host acts. -/
def Obligations.RaiseSetsTheErrorFieldsOnly : Prop :=
  ∀ (e : ErrCode) (row : Nat) (value : Byte) (s : State), row < 2 ^ 32 →
    let t := raiseError e row value s
    t.reg.errCode = e ∧ t.reg.errRow.toNat = row ∧ t.reg.errValue = value ∧ t.reg.phase = .error ∧
    t.seq.stage = .halt ∧
    t = { s with
      reg := { s.reg with
        errCode := t.reg.errCode, errRow := t.reg.errRow, errValue := t.reg.errValue, phase := t.reg.phase }
      seq := { s.seq with stage := t.seq.stage } } ∧
    engineStep t = .next t

/-! ## Fetching a row -/

/-- 41_defilter R80: a row that is not wholly in the input fails the job with RANGE_DEFILTER at its row before
anything of it is read: the error's fields are all that changes. -/
def Obligations.ShortRowRaisesRangeDefilter : Prop :=
  ∀ (s : State) (g : Geometry), engineTurn s = true → s.seq.stage = .rowFetch → geometry s.reg = some g →
    s.reg.inLen.toNat < s.seq.y * rowStride g + rowStride g →
    step s = .next (raiseError .rangeDefilter s.seq.y 0 (afterTurn s))

/-- 41_defilter R81, 30_encoding R60: in a row wholly in the input, a filter-type byte from 0x05 to 0xFF fails the job
with BAD_FILTER, the row and the byte, and changes nothing else; a legal one is latched with the row's bytes loaded
into CUR, and RECON of byte 0 comes next. -/
def Obligations.RowFetchChecksAndLoads : Prop :=
  ∀ (s : State) (g : Geometry), engineTurn s = true → s.seq.stage = .rowFetch → geometry s.reg = some g →
    s.seq.y * rowStride g + rowStride g ≤ s.reg.inLen.toNat → s.reg.inLen.toNat ≤ s.params.inCap →
    scanLength g ≤ s.params.rowCap →
    let ft := readByte .inp (s.seq.y * rowStride g) s
    (5 ≤ ft.toNat → step s = .next (raiseError .badFilter s.seq.y ft (afterTurn s))) ∧
    (ft.toNat < 5 →
      ∃ t, step s = .next t ∧ t.seq = { s.seq with ft := ft, i := 0, stage := .recon } ∧
        (∀ i, i < scanLength g → readByte .cur i t = readByte .inp (s.seq.y * rowStride g + 1 + i) s) ∧
        (∀ i, scanLength g ≤ i → readByte .cur i t = readByte .cur i s) ∧
        t = { afterTurn s with cur := t.cur, seq := t.seq })

/-- A step runs the decoded instruction (10_state R31, 20_memory R52, 41_defilter R81, R82; log entries 6 and 9): when
the engine moves in RECON and the latched filter type decodes to i, the step is exec of i; and when a row's
filter-type byte in IN decodes to i, the fetch leads to a state whose next engine step is exec of i. -/
def Obligations.StepRunsTheDecodedInstruction : Prop :=
  (∀ (s : State) (i : Instr), engineTurn s = true → s.seq.stage = .recon → decodeFilter s.seq.ft = .instr i →
    step s = exec i (afterTurn s)) ∧
  (∀ (s : State) (g : Geometry) (i : Instr), engineTurn s = true → s.seq.stage = .rowFetch →
    geometry s.reg = some g → s.seq.y * rowStride g + rowStride g ≤ s.reg.inLen.toNat →
    s.reg.inLen.toNat ≤ s.params.inCap → scanLength g ≤ s.params.rowCap →
    decodeFilter (readByte .inp (s.seq.y * rowStride g) s) = .instr i →
    ∃ t, step s = .next t ∧ t.seq.i = 0 ∧ engineStep t = exec i t)

/-! ## The five filter types -/

/-- 41_defilter R87, NONE: the step completes, CUR[i] is unchanged, and no flag is written. -/
def Obligations.NoneKeepsTheByte : Prop :=
  ∀ (s : State) (g : Geometry), geometry s.reg = some g → s.seq.i < s.params.rowCap →
    ∃ t, exec .none s = .next t ∧ t.reg = s.reg ∧ readByte .cur s.seq.i t = readByte .cur s.seq.i s

/-- 41_defilter R88, SUB: the step completes, CUR[i] becomes x plus the reconstructed left byte, wrapping, and is left
as encoded for i < BPP. -/
def Obligations.SubAddsTheLeftByte : Prop :=
  ∀ (s : State) (g : Geometry), geometry s.reg = some g → s.seq.i < s.params.rowCap →
    ∃ t, exec .sub s = .next t ∧ t.reg = s.reg ∧
      readByte .cur s.seq.i t =
        if bytesPerPixel g ≤ s.seq.i then
          readByte .cur s.seq.i s + readByte .cur (s.seq.i - bytesPerPixel g) s
        else readByte .cur s.seq.i s

/-- 41_defilter R89, UP: the step completes, and CUR[i] becomes x plus PREV[i], wrapping. -/
def Obligations.UpAddsTheAboveByte : Prop :=
  ∀ (s : State) (g : Geometry), geometry s.reg = some g → s.seq.i < s.params.rowCap →
    ∃ t, exec .up s = .next t ∧ t.reg = s.reg ∧
      readByte .cur s.seq.i t = readByte .cur s.seq.i s + readByte .prev s.seq.i s

/-- 41_defilter R90, AVG: the step completes, and CUR[i] becomes x plus the halved sum of left and above, the sum taken
modulo 2^AVG_SUM_WIDTH: with the width 9 it is the exact mean rounded down; for i < BPP it is half of PREV[i]. -/
def Obligations.AvgAddsTheHalvedSum : Prop :=
  ∀ (s : State) (g : Geometry), geometry s.reg = some g → s.seq.i < s.params.rowCap →
    let x := (readByte .cur s.seq.i s).toNat
    let a := if bytesPerPixel g ≤ s.seq.i then (readByte .cur (s.seq.i - bytesPerPixel g) s).toNat else 0
    let b := (readByte .prev s.seq.i s).toNat
    ∃ t, exec .avg s = .next t ∧ t.reg = s.reg ∧
      (readByte .cur s.seq.i t).toNat = (x + (a + b) % 2 ^ s.params.avgSumWidth.bits / 2) % 256 ∧
      (s.params.avgSumWidth = .w9 → (readByte .cur s.seq.i t).toNat = (x + (a + b) / 2) % 256) ∧
      (s.seq.i < bytesPerPixel g → (readByte .cur s.seq.i t).toNat = (x + b / 2) % 256)

/-- 41_defilter R92 (with the function of R91), PAETH: the step completes, and CUR[i] becomes x plus the predictor,
wrapping: the left byte if its distance pa = |b − c| is least, else the above byte if pb = |a − c| ≤ pc, else the
upper-left byte. -/
def Obligations.PaethAddsThePredictor : Prop :=
  ∀ (s : State) (g : Geometry), geometry s.reg = some g → s.seq.i < s.params.rowCap →
    let x := readByte .cur s.seq.i s
    let a : Byte := if bytesPerPixel g ≤ s.seq.i then readByte .cur (s.seq.i - bytesPerPixel g) s else 0
    let b := readByte .prev s.seq.i s
    let c : Byte := if bytesPerPixel g ≤ s.seq.i then readByte .prev (s.seq.i - bytesPerPixel g) s else 0
    let pa := ((b.toNat : Int) - c.toNat).natAbs
    let pb := ((a.toNat : Int) - c.toNat).natAbs
    let pc := ((a.toNat : Int) - c.toNat + ((b.toNat : Int) - c.toNat)).natAbs
    ∃ t, exec .paeth s = .next t ∧ t.reg = s.reg ∧
      ((pa ≤ pb ∧ pa ≤ pc) → readByte .cur s.seq.i t = x + a) ∧
      (¬ (pa ≤ pb ∧ pa ≤ pc) → pb ≤ pc → readByte .cur s.seq.i t = x + b) ∧
      (¬ (pa ≤ pb ∧ pa ≤ pc) → ¬ pb ≤ pc → readByte .cur s.seq.i t = x + c)

/-- The frame of NONE, SUB, UP, AVG and PAETH (41_defilter R82, R99; 10_state R31, RECON): a step that runs one of them
changes CUR[i] and no other byte of any store; SEQ.i advances by one and the last byte of the row leads to COMMIT; every
register, the parameters and everything else stay. -/
def Obligations.ReconstructionFrame : Prop :=
  ∀ (ft : Instr) (s t : State) (g : Geometry), geometry s.reg = some g → exec ft s = .next t →
    t.seq = { s.seq with
      i := s.seq.i + 1, stage := if s.seq.i + 1 = scanLength g then .commit else s.seq.stage } ∧
    (∀ j, j ≠ s.seq.i → readByte .cur j t = readByte .cur j s) ∧
    t = { s with cur := t.cur, seq := t.seq }

/-- Where a filter type does not complete: off the machine, in states that no run reaches (log entry 11, the model's
choice: the spec gives the step no effect there). An unknown colour type has no geometry, and CUR has no byte at or
above ROW_CAP. -/
def Obligations.ReconstructionStopsOffTheMachine : Prop :=
  ∀ (ft : Instr) (s : State),
    (geometry s.reg = none → exec ft s = .fault .noGeometry) ∧
    (∀ g, geometry s.reg = some g → s.params.rowCap ≤ s.seq.i → exec ft s = .fault (.beyondCapacity .cur))

/-- 41_defilter R84: each filter type's step computes wrap8(x + pred) with its predictor of the table. The table is
the spec's own restatement, marked derived. -/
def Obligations.EachFilterAddsItsPredictor : Prop :=
  ∀ (ft : Instr) (s : State) (g : Geometry), geometry s.reg = some g → s.seq.i < s.params.rowCap →
    let o := rowOperands (bytesPerPixel g) s.seq.i s
    let pred : Nat := match ft with
      | .none => 0
      | .sub => o.a.toNat
      | .up => o.b.toNat
      | .avg => (o.a.toNat + o.b.toNat) % 2 ^ s.params.avgSumWidth.bits / 2
      | .paeth => (paeth o.a o.b o.c).toNat
    ∃ t, exec ft s = .next t ∧ (readByte .cur s.seq.i t).toNat = (o.x.toNat + pred) % 256

/-- 41_defilter R91: the ranges of the three distances, and the Paeth predictor: the candidate of least distance, ties
in the order a, b, c. -/
def Obligations.PaethPicksTheNearest : Prop :=
  ∀ a b c : Byte,
    let pa := ((b.toNat : Int) - c.toNat).natAbs
    let pb := ((a.toNat : Int) - c.toNat).natAbs
    let pc := ((a.toNat : Int) - c.toNat + ((b.toNat : Int) - c.toNat)).natAbs
    pa ≤ 255 ∧ pb ≤ 255 ∧ pc ≤ 510 ∧
    ((paeth a b c = a ∧ pa ≤ pb ∧ pa ≤ pc) ∨ (paeth a b c = b ∧ pb < pa ∧ pb ≤ pc) ∨
      (paeth a b c = c ∧ pc < pa ∧ pc < pb))

/-- 41_defilter R93: in row 0, where PREV is all zero, UP does what NONE does, PAETH does what SUB does, and AVG adds
half of the left byte. The spec marks this as its own derivation. -/
def Obligations.RowZeroCollapses : Prop :=
  ∀ (s : State) (g : Geometry), geometry s.reg = some g → s.seq.i < s.params.rowCap →
    (∀ i, i ≤ s.seq.i → readByte .prev i s = 0) →
    exec .up s = exec .none s ∧ exec .paeth s = exec .sub s ∧
    ∃ t, exec .avg s = .next t ∧
      (readByte .cur s.seq.i t).toNat =
        ((readByte .cur s.seq.i s).toNat +
          (if bytesPerPixel g ≤ s.seq.i then (readByte .cur (s.seq.i - bytesPerPixel g) s).toNat else 0) / 2) % 256

/-- 41_defilter R94: on the first pixel of a row (i < BPP), SUB does what NONE does, PAETH does what UP does, and AVG
adds half of the above byte. The spec marks this as its own derivation. -/
def Obligations.FirstPixelCollapses : Prop :=
  ∀ (s : State) (g : Geometry), geometry s.reg = some g → s.seq.i < s.params.rowCap → s.seq.i < bytesPerPixel g →
    exec .sub s = exec .none s ∧ exec .paeth s = exec .up s ∧
    ∃ t, exec .avg s = .next t ∧
      (readByte .cur s.seq.i t).toNat =
        ((readByte .cur s.seq.i s).toNat + (readByte .prev s.seq.i s).toNat / 2) % 256

/-- 30_encoding R64, 41_defilter R95: lanes are independent: the reconstructed bytes of a lane depend only on that
lane's bytes of the row and of the previous row. The spec marks this as its own derivation. -/
def Obligations.LanesAreIndependent : Prop :=
  ∀ (aw : AvgSumWidth) (ft : Instr) (bpp lane : Nat) (prev prev' cur cur' : List Byte), 1 ≤ bpp →
    cur.length = cur'.length →
    (∀ i, i < cur.length → i % bpp = lane →
      cur.getD i 0 = cur'.getD i 0 ∧ prev.getD i 0 = prev'.getD i 0) →
    ∀ i, i < cur.length → i % bpp = lane →
      (reconRow aw ft bpp prev cur).getD i 0 = (reconRow aw ft bpp prev' cur').getD i 0

/-- 41_defilter R97: reconstruction undoes the forward filter, for every filter type and under either width of the
Average sum, over any previous row. The law is the spec's own derivation, of its source's property (95_test_vectors
E4). -/
def Obligations.ReconstructionInvertsTheForwardFilter : Prop :=
  ∀ (aw : AvgSumWidth) (ft : Instr) (bpp : Nat) (prev row : List Byte), 1 ≤ bpp →
    reconRow aw ft bpp prev (forwardRow aw ft bpp prev row) = row

/-- 90_conflicts C3, 41_defilter R90: the two widths of the Average sum give the same predictor exactly when a + b <
256, and otherwise the 8-bit one is 128 less. -/
def Obligations.AverageWidthsDifferOnWideSums : Prop :=
  ∀ a b : Byte,
    (a.toNat + b.toNat < 256 → avgPredictor .w8 a b = avgPredictor .w9 a b) ∧
    (256 ≤ a.toNat + b.toNat → avgPredictor .w8 a b + 128 = avgPredictor .w9 a b)

/-! ## Committing a row and assembling pixels -/

/-- 41_defilter R85, 10_state R31 (COMMIT): the row goes to RAW at y·L, PREV takes a copy of CUR, no other byte changes;
SEQ.y advances, to the next row's fetch or, after the last row, to the assembler with PHASE = ASSEMBLE. -/
def Obligations.CommitCopiesTheRow : Prop :=
  ∀ (s : State) (g : Geometry), engineTurn s = true → s.seq.stage = .commit → geometry s.reg = some g →
    scanLength g ≤ s.params.rowCap → s.seq.y * scanLength g + scanLength g ≤ s.params.rawCap →
    ∃ t, step s = .next t ∧
      (∀ i, i < scanLength g → readByte .raw (s.seq.y * scanLength g + i) t = readByte .cur i s) ∧
      (∀ a, (a < s.seq.y * scanLength g ∨ s.seq.y * scanLength g + scanLength g ≤ a) →
        readByte .raw a t = readByte .raw a s) ∧
      (∀ i, i < scanLength g → readByte .prev i t = readByte .cur i s) ∧
      (∀ i, scanLength g ≤ i → readByte .prev i t = readByte .prev i s) ∧
      t.seq = { s.seq with
        y := s.seq.y + 1, stage := if s.seq.y + 1 = g.height then .asmCheck else .rowFetch } ∧
      t.reg = { s.reg with phase := if s.seq.y + 1 = g.height then .assemble else s.reg.phase } ∧
      t = { afterTurn s with raw := t.raw, prev := t.prev, seq := t.seq, reg := t.reg }

/-- 42_assembler R101: ASM_CHECK raises RANGE_ASSEMBLE when BPP·N > RAWN or, under RangeError, when BPP·(N − 1) + 3 >
RAWN; otherwise the first pixel comes next and nothing else changes. -/
def Obligations.AssemblerRangeCheck : Prop :=
  ∀ (s : State) (g : Geometry), engineTurn s = true → s.seq.stage = .asmCheck → geometry s.reg = some g →
    let bpp : Int := bytesPerPixel g
    let n : Int := pixelCount g
    let short := bpp * n > rawLength g ∨
      (s.params.asmOobPolicy = .rangeError ∧ bpp * (n - 1) + 3 > rawLength g)
    (short → step s = .next (raiseError .rangeAssemble 0 0 (afterTurn s))) ∧
    (¬ short → step s = .next { afterTurn s with seq := { s.seq with y := 0, x := 0, stage := .pixel } })

/-- 42_assembler R102, R107: for a pixel whose three samples lie in the raw stream, the PIXEL step copies RAW bytes o,
o + 1 and o + 2 to R, G and B, writes 255 to alpha, changes no other byte, and moves on in row-major order, to DONE
after the last pixel. -/
def Obligations.PixelCopiesThreeSamples : Prop :=
  ∀ (s : State) (g : Geometry), engineTurn s = true → s.seq.stage = .pixel → geometry s.reg = some g →
    let o := bytesPerPixel g * (g.width * s.seq.y + s.seq.x)
    let p := 4 * (s.seq.y * g.width + s.seq.x)
    o + 3 ≤ rawLength g → o + 3 ≤ s.params.rawCap → p + 4 ≤ s.params.pixCap →
    ∃ t, step s = .next t ∧
      readByte .pix p t = readByte .raw o s ∧ readByte .pix (p + 1) t = readByte .raw (o + 1) s ∧
      readByte .pix (p + 2) t = readByte .raw (o + 2) s ∧ readByte .pix (p + 3) t = 255 ∧
      (∀ a, (a < p ∨ p + 4 ≤ a) → readByte .pix a t = readByte .pix a s) ∧
      (let x := if s.seq.x + 1 = g.width then 0 else s.seq.x + 1
       let y := if s.seq.x + 1 = g.width then s.seq.y + 1 else s.seq.y
       t.seq = { s.seq with x := x, y := y, stage := if y = g.height then .halt else .pixel } ∧
       t.reg = { s.reg with phase := if y = g.height then .done else s.reg.phase }) ∧
      t = { afterTurn s with pix := t.pix, seq := t.seq, reg := t.reg }

/-- 42_assembler R103: a sample at or past RAWN is one draw_byte() per read, in the order R, G, B, and nothing is read
there; a sample inside is the raw byte. Alpha is 255 all the same, no other byte of any store changes, and the step moves
on as 10_state R31 (PIXEL) gives. The order of the draws is the job function's (R104), their counter the model's form (log
entry 5). -/
def Obligations.SamplesPastTheStreamAreDraws : Prop :=
  ∀ (s : State) (g : Geometry), engineTurn s = true → s.seq.stage = .pixel → geometry s.reg = some g →
    let o := bytesPerPixel g * (g.width * s.seq.y + s.seq.x)
    let p := 4 * (s.seq.y * g.width + s.seq.x)
    rawLength g ≤ s.params.rawCap → p + 4 ≤ s.params.pixCap → rawLength g < o + 3 →
    ∃ t, step s = .next t ∧ readByte .pix (p + 3) t = 255 ∧
      (o + 1 < rawLength g →
        readByte .pix p t = readByte .raw o s ∧ readByte .pix (p + 1) t = readByte .raw (o + 1) s ∧
        readByte .pix (p + 2) t = Config.drawByte s.draws ∧ t.draws = s.draws + 1) ∧
      (o < rawLength g → rawLength g ≤ o + 1 →
        readByte .pix p t = readByte .raw o s ∧ readByte .pix (p + 1) t = Config.drawByte s.draws ∧
        readByte .pix (p + 2) t = Config.drawByte (s.draws + 1) ∧ t.draws = s.draws + 2) ∧
      (rawLength g ≤ o →
        readByte .pix p t = Config.drawByte s.draws ∧ readByte .pix (p + 1) t = Config.drawByte (s.draws + 1) ∧
        readByte .pix (p + 2) t = Config.drawByte (s.draws + 2) ∧ t.draws = s.draws + 3) ∧
      (∀ a, (a < p ∨ p + 4 ≤ a) → readByte .pix a t = readByte .pix a s) ∧
      (let x := if s.seq.x + 1 = g.width then 0 else s.seq.x + 1
       let y := if s.seq.x + 1 = g.width then s.seq.y + 1 else s.seq.y
       t.seq = { s.seq with x := x, y := y, stage := if y = g.height then .halt else .pixel } ∧
       t.reg = { s.reg with phase := if y = g.height then .done else s.reg.phase }) ∧
      t = { afterTurn s with pix := t.pix, draws := t.draws, seq := t.seq, reg := t.reg }

/-- 42_assembler R103: a read past the stream happens only when BPP < 3; under RangeError, once ASM_CHECK has passed, no
pixel takes a draw. -/
def Obligations.NoDrawsUnderRangeError : Prop :=
  (∀ (g : Geometry) (x y k : Nat), x < g.width → y < g.height → k < 3 → bytesPerPixel g * pixelCount g ≤ rawLength g →
    rawLength g ≤ bytesPerPixel g * (g.width * y + x) + k → bytesPerPixel g < 3) ∧
  (∀ s t : State, Inv s → s.seq.stage = .pixel → s.params.asmOobPolicy = .rangeError → engineStep s = .next t →
    t.draws = s.draws)

/-! ## The whole machine -/

/-- 20_memory R38 and 10_state R36: no engine step writes IN, a configuration register or a parameter; what it leaves
to the host and to the outside it leaves alone too. -/
def Obligations.EngineKeepsInputAndConfiguration : Prop :=
  ∀ s t : State, engineStep s = .next t →
    t.inp = s.inp ∧ t.params = s.params ∧ t.reg.width = s.reg.width ∧ t.reg.height = s.reg.height ∧
    t.reg.bitDepth = s.reg.bitDepth ∧ t.reg.colorType = s.reg.colorType ∧ t.reg.inLen = s.reg.inLen ∧
    t.epoch = s.epoch ∧ t.hostData = s.hostData ∧ t.agenda = s.agenda

/-- 20_memory R38: the engine reads IN only below IN_LEN: from two states that differ only in IN bytes from IN_LEN up,
an engine step does the same thing. -/
def Obligations.EngineReadsInputBelowInLen : Prop :=
  ∀ s s' t : State, agreeBelow s.reg.inLen.toNat s s' → engineStep s = .next t →
    ∃ t', engineStep s' = .next t' ∧ agreeBelow s.reg.inLen.toNat t t'

/-- 60_exceptions R110, R115: an engine step that ends a job in ERROR does so by one of the table's errors, with its
row and value, and no effect but the error's: no byte of any store changes. That a raising step has no other effect
the spec marks as its own derivation. -/
def Obligations.ErrorsArePreciseAndListed : Prop :=
  ∀ s t : State, s.reg.phase ≠ .error → engineStep s = .next t → t.reg.phase = .error →
    ∃ (e : ErrCode) (row : Nat) (value : Byte), t = raiseError e row value s ∧
      ((s.seq.stage = .check ∧ row = 0 ∧
          ((e = .config ∧ value = 0) ∨ (e = .unknownColorType ∧ value = s.reg.colorType))) ∨
       (s.seq.stage = .rowFetch ∧ row = s.seq.y ∧
          ((e = .rangeDefilter ∧ value = 0) ∨ (e = .badFilter ∧ 5 ≤ value.toNat))) ∨
       (s.seq.stage = .asmCheck ∧ e = .rangeAssemble ∧ row = 0 ∧ value = 0))

/-- The invariant holds right after reset, whatever the parameters (10_state R35). -/
def Obligations.InvariantHoldsAtReset : Prop :=
  (∀ p : Params, p.wf → Inv (State.resetWith p)) ∧ Inv State.reset

/-- Every step of either agent keeps the invariant: parameters in range, stores canonical and within capacity, phase and
stage agreeing (10_state R17, R31), error fields agreeing with the code (R18, R25, R26), and a running job inside its
configuration (R29, R32). The invariant is the model's (log entry 4 for the canonical form). -/
def Obligations.EveryStepKeepsTheInvariant : Prop :=
  ∀ s t : State, Inv s → step s = .next t → Inv t

/-- 20_memory R45, 60_exceptions R110: from a state that meets the invariant an engine step always has a next state: no
access falls outside a memory and nothing else stops a job. In HALT it is the model's step that changes nothing (log
entry 8). That every access falls within capacity the spec marks as its own derivation. -/
def Obligations.EngineNeverStops : Prop :=
  ∀ s : State, Inv s → engineTurn s = true → ∃ t, step s = .next t

/-- 42_assembler R109: once ASM_CHECK has passed, no error is raised: a PIXEL step goes on to the next pixel in
ASSEMBLE, or ends the job in DONE. The spec marks this as its own derivation. -/
def Obligations.PixelStepsNeverFail : Prop :=
  ∀ s : State, Inv s → engineTurn s = true → s.seq.stage = .pixel →
    ∃ t, step s = .next t ∧ t.reg.errCode = .none ∧
      ((t.reg.phase = .assemble ∧ t.seq.stage = .pixel) ∨ (t.reg.phase = .done ∧ t.seq.stage = .halt))

/-- 00_scope R7, 42_assembler R104, 70_reset R138: the two levels agree. From every state that has just accepted a
START, whatever its configuration and memories, the engine's steps reach HALT, and the first halted state shows
exactly the result of the job function. -/
def Obligations.EngineComputesTheJobFunction : Prop :=
  ∀ s : State, justStarted s = true →
    ∃ (n : Nat) (t : State), Host.Core.run Sys2Proof.core n s = .next t ∧ showsResult s t (jobFunction s) ∧
      ∀ m, m < n → ∃ u : State, Host.Core.run Sys2Proof.core m s = .next u ∧ u.seq.stage ≠ .halt

/-- 70_reset R137: a complete job takes exactly 1 + H·(L + 2) + 1 + N engine steps. -/
def Obligations.CompleteJobStepCount : Prop :=
  ∀ (s : State) (g : Geometry), justStarted s = true → startChecks s = .ok g → (jobFunction s).phase = .done →
    (∃ t : State, Host.Core.run Sys2Proof.core (1 + g.height * (scanLength g + 2) + 1 + pixelCount g) s = .next t ∧
      t.seq.stage = .halt ∧ t.reg.phase = .done) ∧
    ∀ m, m < 1 + g.height * (scanLength g + 2) + 1 + pixelCount g →
      ∃ u : State, Host.Core.run Sys2Proof.core m s = .next u ∧ u.seq.stage ≠ .halt

/-- 20_memory R39, 42_assembler R108: a job that completes writes RAW at exactly the addresses 0 to RAWN − 1 and PIX
at exactly 0 to 4·N − 1: what it leaves there is the same whatever RAW and PIX held before, and every other byte of
them keeps its pre-job value. The spec marks this as its own derivation. -/
def Obligations.CompletedJobWritesExactlyItsRanges : Prop :=
  ∀ (s : State) (g : Geometry) (raw pix : Memory), startChecks s = .ok g → (jobFunction s).phase = .done →
    let r := jobFunction s
    let r' := jobFunction { s with raw := raw, pix := pix }
    (∀ a, a < rawLength g → (∃ b, Memory.find r.raw a = some b) ∧ Memory.find r'.raw a = Memory.find r.raw a) ∧
    (∀ a, rawLength g ≤ a → Memory.find r.raw a = Memory.find s.raw a) ∧
    (∀ a, a < 4 * pixelCount g → (∃ b, Memory.find r.pix a = some b) ∧ Memory.find r'.pix a = Memory.find r.pix a) ∧
    (∀ a, 4 * pixelCount g ≤ a → Memory.find r.pix a = Memory.find s.pix a)

/-- 60_exceptions R114: after an error PIX is unchanged, and RAW is unchanged by a start error, from y·L up after an
error at row y, and from RAWN up after RANGE_ASSEMBLE. -/
def Obligations.FailedJobKeepsTheRest : Prop :=
  ∀ s : State, (jobFunction s).phase = .error →
    (jobFunction s).pix = s.pix ∧
    (((jobFunction s).errCode = .config ∨ (jobFunction s).errCode = .unknownColorType) → (jobFunction s).raw = s.raw) ∧
    (∀ g, geometry s.reg = some g → ((jobFunction s).errCode = .rangeDefilter ∨ (jobFunction s).errCode = .badFilter) →
      ∀ a, (jobFunction s).errRow * scanLength g ≤ a →
        Memory.find (jobFunction s).raw a = Memory.find s.raw a) ∧
    (∀ g, geometry s.reg = some g → (jobFunction s).errCode = .rangeAssemble →
      ∀ a, rawLength g ≤ a → Memory.find (jobFunction s).raw a = Memory.find s.raw a)

/-- 60_exceptions R116: the error of a job is the first: when a row fails it, every earlier row is wholly in the input
and carries a legal filter type, and BAD_FILTER means the failing row itself is wholly in the input. -/
def Obligations.FirstErrorWins : Prop :=
  ∀ (s : State) (g : Geometry), startChecks s = .ok g →
    ((jobFunction s).errCode = .badFilter ∨ (jobFunction s).errCode = .rangeDefilter) →
    (jobFunction s).errRow < g.height ∧
    (∀ y, y < (jobFunction s).errRow →
      y * rowStride g + rowStride g ≤ s.reg.inLen.toNat ∧ (readByte .inp (y * rowStride g) s).toNat < 5) ∧
    ((jobFunction s).errCode = .badFilter →
      (jobFunction s).errRow * rowStride g + rowStride g ≤ s.reg.inLen.toNat ∧
      (jobFunction s).errValue = readByte .inp ((jobFunction s).errRow * rowStride g) s ∧
      5 ≤ (jobFunction s).errValue.toNat) ∧
    ((jobFunction s).errCode = .rangeDefilter →
      s.reg.inLen.toNat < (jobFunction s).errRow * rowStride g + rowStride g)

/-- 30_encoding R57: bytes of IN from H·S up are never read and have no effect on a job. The spec marks this as its
own derivation. -/
def Obligations.TrailingInputHasNoEffect : Prop :=
  ∀ (s s' : State) (g : Geometry), geometry s.reg = some g → agreeBelow (g.height * rowStride g) s s' →
    jobFunction s' = jobFunction s

/-- 30_encoding R68, 42_assembler R102, R106, R107: in a completed job under RangeError every pixel (x, y) of PIX
holds, from 4·(y·W + x) up, the three raw bytes from BPP·(W·y + x) up and then alpha 255. -/
def Obligations.CompletedImageIsThreeSamplesAndAlpha : Prop :=
  ∀ (s : State) (g : Geometry), startChecks s = .ok g → s.params.asmOobPolicy = .rangeError →
    (jobFunction s).phase = .done → ∀ x y, x < g.width → y < g.height →
    (∀ k, k < 3 →
      Memory.find (jobFunction s).pix (4 * (y * g.width + x) + k) =
        Memory.find (jobFunction s).raw (bytesPerPixel g * (g.width * y + x) + k)) ∧
    Memory.find (jobFunction s).pix (4 * (y * g.width + x) + 3) = some 255
end

