-- ==== Sys2Proof/Laws/Arith.lean ====
section
/-! SUPPORT. wrap8 and the predictors as arithmetic on natural numbers (00_scope R9; 41_defilter R83, R84, R98). -/

namespace Sys2Proof.Machine

/-- wrap8 of a non-negative integer. -/
theorem wrap8_natCast (n : Nat) : (wrap8 (n : Int)).toNat = n % 256 := by
  simp [wrap8]; omega

/-- Adding two bytes in ℤ and wrapping is the wrapping addition of bytes. -/
theorem wrap8_add_byte (x a : Byte) : wrap8 (byteInt x + byteInt a) = x + a := by
  apply BitVec.eq_of_toNat_eq
  have h : byteInt x + byteInt a = ((x.toNat + a.toNat : Nat) : Int) := by simp [byteInt]
  rw [h, wrap8_natCast]
  simp

/-- Adding nothing changes nothing. -/
theorem wrap8_byte (x : Byte) : wrap8 (byteInt x + 0) = x := by
  have h := wrap8_add_byte x 0
  simpa [byteInt] using h

/-- wrap8(wrap8(r − p) + p) = r, for every integer p (41_defilter R97). -/
theorem wrap8_sub_add (r : Byte) (p : Int) : wrap8 (byteInt (wrap8 (byteInt r - p)) + p) = r := by
  apply BitVec.eq_of_toNat_eq
  have := r.isLt
  simp only [wrap8, byteInt, BitVec.toNat_ofNat]
  omega

/-- The Average predictor on natural numbers. -/
theorem avgPredictor_eq (aw : AvgSumWidth) (a b : Byte) :
    avgPredictor aw a b = (((a.toNat + b.toNat) % 2 ^ aw.bits / 2 : Nat) : Int) := by
  simp [avgPredictor, byteInt]

/-- Every predictor is a natural number (41_defilter R84). -/
theorem predictor_eq (aw : AvgSumWidth) (ft : Instr) (a b c : Byte) :
    predictor aw ft a b c = ((match ft with
      | .none => 0
      | .sub => a.toNat
      | .up => b.toNat
      | .avg => (a.toNat + b.toNat) % 2 ^ aw.bits / 2
      | .paeth => (paeth a b c).toNat : Nat) : Int) := by
  cases ft <;> simp [predictor, byteInt, avgPredictor_eq]

end Sys2Proof.Machine
end

