-- ==== Sys2Proof/Laws/State.lean ====
section
/-! SUPPORT. One lemma per field per update, so that no proof unfolds a record update. -/

namespace Sys2Proof.Machine

/-! Replacing a byte store. -/

@[simp] theorem setMem_params (sp m s) : (setMem sp m s).params = s.params := by cases sp <;> rfl
@[simp] theorem setMem_reg (sp m s) : (setMem sp m s).reg = s.reg := by cases sp <;> rfl
@[simp] theorem setMem_seq (sp m s) : (setMem sp m s).seq = s.seq := by cases sp <;> rfl
@[simp] theorem setMem_draws (sp m s) : (setMem sp m s).draws = s.draws := by cases sp <;> rfl
@[simp] theorem setMem_epoch (sp m s) : (setMem sp m s).epoch = s.epoch := by cases sp <;> rfl
@[simp] theorem setMem_hostData (sp m s) : (setMem sp m s).hostData = s.hostData := by cases sp <;> rfl
@[simp] theorem setMem_agenda (sp m s) : (setMem sp m s).agenda = s.agenda := by cases sp <;> rfl

@[simp] theorem memOf_setMem_same (sp m s) : memOf sp (setMem sp m s) = m := by cases sp <;> rfl

theorem memOf_setMem_other {sp sp' : Space} (h : sp ≠ sp') (m s) : memOf sp (setMem sp' m s) = memOf sp s := by
  cases sp <;> cases sp' <;> first | rfl | exact absurd rfl h

/-- Replacing a store by what it holds changes nothing. -/
@[simp] theorem setMem_memOf (sp s) : setMem sp (memOf sp s) s = s := by cases sp <;> rfl

/-- The last of two replacements of a store stays. -/
@[simp] theorem setMem_setMem (sp m m' s) : setMem sp m (setMem sp m' s) = setMem sp m s := by cases sp <;> rfl

/-! Writing one byte. -/

@[simp] theorem writeByte_params (sp a b s) : (writeByte sp a b s).params = s.params := setMem_params ..
@[simp] theorem writeByte_reg (sp a b s) : (writeByte sp a b s).reg = s.reg := setMem_reg ..
@[simp] theorem writeByte_seq (sp a b s) : (writeByte sp a b s).seq = s.seq := setMem_seq ..
@[simp] theorem writeByte_draws (sp a b s) : (writeByte sp a b s).draws = s.draws := setMem_draws ..
@[simp] theorem writeByte_epoch (sp a b s) : (writeByte sp a b s).epoch = s.epoch := setMem_epoch ..
@[simp] theorem writeByte_hostData (sp a b s) : (writeByte sp a b s).hostData = s.hostData := setMem_hostData ..
@[simp] theorem writeByte_agenda (sp a b s) : (writeByte sp a b s).agenda = s.agenda := setMem_agenda ..

/-! Writing bytes. -/

@[simp] theorem writeBytes_params (sp a bs s) : (writeBytes sp a bs s).params = s.params := setMem_params ..
@[simp] theorem writeBytes_reg (sp a bs s) : (writeBytes sp a bs s).reg = s.reg := setMem_reg ..
@[simp] theorem writeBytes_seq (sp a bs s) : (writeBytes sp a bs s).seq = s.seq := setMem_seq ..
@[simp] theorem writeBytes_draws (sp a bs s) : (writeBytes sp a bs s).draws = s.draws := setMem_draws ..
@[simp] theorem writeBytes_epoch (sp a bs s) : (writeBytes sp a bs s).epoch = s.epoch := setMem_epoch ..
@[simp] theorem writeBytes_hostData (sp a bs s) : (writeBytes sp a bs s).hostData = s.hostData := setMem_hostData ..
@[simp] theorem writeBytes_agenda (sp a bs s) : (writeBytes sp a bs s).agenda = s.agenda := setMem_agenda ..

/-! Raising an error writes the status, the error fields and the stage only. -/

@[simp] theorem raiseError_params (e row v s) : (raiseError e row v s).params = s.params := rfl
@[simp] theorem raiseError_memOf (e row v s sp) : memOf sp (raiseError e row v s) = memOf sp s := by cases sp <;> rfl
@[simp] theorem raiseError_draws (e row v s) : (raiseError e row v s).draws = s.draws := rfl
@[simp] theorem raiseError_epoch (e row v s) : (raiseError e row v s).epoch = s.epoch := rfl
@[simp] theorem raiseError_hostData (e row v s) : (raiseError e row v s).hostData = s.hostData := rfl
@[simp] theorem raiseError_agenda (e row v s) : (raiseError e row v s).agenda = s.agenda := rfl
@[simp] theorem raiseError_phase (e row v s) : (raiseError e row v s).reg.phase = .error := rfl
@[simp] theorem raiseError_errCode (e row v s) : (raiseError e row v s).reg.errCode = e := rfl
@[simp] theorem raiseError_errRow (e row v s) : (raiseError e row v s).reg.errRow = BitVec.ofNat 32 row := rfl
@[simp] theorem raiseError_errValue (e row v s) : (raiseError e row v s).reg.errValue = v := rfl
@[simp] theorem raiseError_stage (e row v s) : (raiseError e row v s).seq.stage = .halt := rfl

/-! A draw takes one free value. -/

@[simp] theorem drawByte_params (s) : (drawByte s).2.params = s.params := rfl
@[simp] theorem drawByte_reg (s) : (drawByte s).2.reg = s.reg := rfl
@[simp] theorem drawByte_seq (s) : (drawByte s).2.seq = s.seq := rfl
@[simp] theorem drawByte_memOf (s sp) : memOf sp (drawByte s).2 = memOf sp s := by cases sp <;> rfl
@[simp] theorem drawByte_draws (s) : (drawByte s).2.draws = s.draws + 1 := rfl
@[simp] theorem drawByte_epoch (s) : (drawByte s).2.epoch = s.epoch := rfl
@[simp] theorem drawByte_hostData (s) : (drawByte s).2.hostData = s.hostData := rfl
@[simp] theorem drawByte_agenda (s) : (drawByte s).2.agenda = s.agenda := rfl
@[simp] theorem drawByte_value (s) : (drawByte s).1 = Config.drawByte s.draws := rfl

/-! Replacing SEQ, the registers, the agenda or the host's data leaves the byte stores alone. -/

@[simp] theorem memOf_withSeq (sp) (s : State) (q) : memOf sp { s with seq := q } = memOf sp s := by cases sp <;> rfl
@[simp] theorem memOf_withReg (sp) (s : State) (r) : memOf sp { s with reg := r } = memOf sp s := by cases sp <;> rfl
@[simp] theorem memOf_withRegSeq (sp) (s : State) (r q) : memOf sp { s with reg := r, seq := q } = memOf sp s := by
  cases sp <;> rfl
@[simp] theorem memOf_withAgenda (sp) (s : State) (l) : memOf sp { s with agenda := l } = memOf sp s := by
  cases sp <;> rfl
@[simp] theorem memOf_withHostData (sp) (s : State) (w) : memOf sp { s with hostData := w } = memOf sp s := by
  cases sp <;> rfl

end Sys2Proof.Machine
end

