-- ==== Sys2Proof/Laws/Memory.lean ====
section
/-! SUPPORT. Reading after writing, and that every memory operation keeps the canonical form. -/

namespace Sys2Proof.Machine

/-- A byte written is the byte read back. -/
@[simp] theorem find_write_same (m : Memory) (a : Nat) (b : Byte) : Memory.find (Memory.write m a b) a = some b := by
  induction m with
  | nil => simp [Memory.write, Memory.find]
  | cons c rest ih =>
    obtain ⟨k, v⟩ := c
    simp only [Memory.write]
    split
    · simp [Memory.find]
    · split
      · simp [Memory.find]
      · have : k ≠ a := fun h => by simp_all
        simpa [Memory.find, this] using ih

/-- A write leaves every other address alone. -/
theorem find_write_other (m : Memory) {a c : Nat} (b : Byte) (h : c ≠ a) :
    Memory.find (Memory.write m a b) c = Memory.find m c := by
  induction m with
  | nil => simp [Memory.write, Memory.find, Ne.symm h]
  | cons e rest ih =>
    obtain ⟨k, v⟩ := e
    simp only [Memory.write]
    split
    · simp [Memory.find, Ne.symm h]
    · split
      · next heq => subst heq; simp [Memory.find, Ne.symm h]
      · by_cases hk : k = c
        · simp [Memory.find, hk]
        · simpa [Memory.find, hk] using ih

/-- Every address of a written memory is the one written or was there before. -/
theorem mem_write {m : Memory} {a : Nat} {b : Byte} {p : Host.Cell} (h : p ∈ Memory.write m a b) :
    p.1 = a ∨ p ∈ m := by
  induction m with
  | nil => left; simp_all [Memory.write]
  | cons e rest ih =>
    obtain ⟨k, v⟩ := e
    simp only [Memory.write] at h
    split at h
    · rcases List.mem_cons.1 h with h | h
      · left; rw [h]
      · exact .inr h
    · split at h
      · rcases List.mem_cons.1 h with h | h
        · left; rw [h]
        · exact .inr (List.mem_cons_of_mem _ h)
      · rcases List.mem_cons.1 h with h | h
        · right; rw [h]; exact List.mem_cons_self
        · exact (ih h).imp id (List.mem_cons_of_mem _)

/-- A write keeps the canonical form. -/
theorem wf_write {m : Memory} (h : Memory.wf m) (a : Nat) (b : Byte) : Memory.wf (Memory.write m a b) := by
  induction m with
  | nil => simp [Memory.write, Memory.wf]
  | cons e rest ih =>
    obtain ⟨k, v⟩ := e
    have hr := List.pairwise_cons.1 h
    simp only [Memory.write]
    split
    · next hlt =>
      refine List.pairwise_cons.2 ⟨fun p hp => ?_, h⟩
      rcases List.mem_cons.1 hp with rfl | hp
      · exact hlt
      · exact Nat.lt_trans hlt (hr.1 p hp)
    · split
      · next heq => subst heq; exact List.pairwise_cons.2 ⟨hr.1, hr.2⟩
      · refine List.pairwise_cons.2 ⟨fun p hp => ?_, ih hr.2⟩
        rcases mem_write hp with h' | h'
        · simp only [h']; omega
        · exact hr.1 p h'

/-- A write below the capacity keeps a memory within it. -/
theorem below_write {cap : Nat} {m : Memory} (h : Memory.below cap m) {a : Nat} (ha : a < cap) (b : Byte) :
    Memory.below cap (Memory.write m a b) := by
  intro p hp
  rcases mem_write hp with h' | h'
  · omega
  · exact h p h'

/-- What a run of bytes written from a base reads back as, address by address. -/
theorem find_writeList (bs : List Byte) : ∀ (m : Memory) (a c : Nat),
    Memory.find (Memory.writeList m a bs) c =
      if a ≤ c ∧ c < a + bs.length then bs[c - a]? else Memory.find m c := by
  induction bs with
  | nil => intro m a c; simp [Memory.writeList]
  | cons b rest ih =>
    intro m a c
    rw [Memory.writeList, ih]
    by_cases h1 : a + 1 ≤ c ∧ c < a + 1 + rest.length
    · rw [if_pos h1, if_pos (by simp only [List.length_cons]; omega)]
      obtain ⟨k, rfl⟩ : ∃ k, c = a + 1 + k := ⟨c - (a + 1), by omega⟩
      rw [show a + 1 + k - a = k + 1 by omega, show a + 1 + k - (a + 1) = k by omega]
      simp
    · rw [if_neg h1]
      by_cases h2 : c = a
      · subst h2
        rw [if_pos (by simp only [List.length_cons]; omega)]
        simp
      · rw [if_neg (by simp only [List.length_cons]; omega), find_write_other _ _ h2]

/-- Writing bytes keeps the canonical form. -/
theorem wf_writeList (bs : List Byte) : ∀ {m : Memory}, Memory.wf m → ∀ a, Memory.wf (Memory.writeList m a bs) := by
  induction bs with
  | nil => intro m h a; exact h
  | cons b rest ih => intro m h a; exact ih (wf_write h a b) (a + 1)

/-- Writing bytes below the capacity keeps a memory within it. -/
theorem below_writeList {cap : Nat} (bs : List Byte) : ∀ {m : Memory}, Memory.below cap m → ∀ {a : Nat},
    a + bs.length ≤ cap → Memory.below cap (Memory.writeList m a bs) := by
  induction bs with
  | nil => intro m h a _; exact h
  | cons b rest ih =>
    intro m h a ha
    simp only [List.length_cons] at ha
    exact ih (below_write h (by omega) b) (by omega)

end Sys2Proof.Machine
end

