-- ==== Sys2Proof/Laws/Ops.lean ====
section
/-! SUPPORT. What the named operations of Machine/Ops.lean do to the byte that is read at an address. -/

namespace Sys2Proof.Machine

/-- A read depends on the store and the epoch only. -/
theorem readByte_congr {sp : Space} {a : Nat} {s t : State} (hm : memOf sp t = memOf sp s) (he : t.epoch = s.epoch) :
    readByte sp a t = readByte sp a s := by
  simp only [readByte, hm, he]

@[simp] theorem readByte_writeByte_same (sp : Space) (a : Nat) (b : Byte) (s : State) :
    readByte sp a (writeByte sp a b s) = b := by
  simp [readByte, writeByte]

theorem readByte_writeByte_address {a c : Nat} (h : c ≠ a) (sp : Space) (b : Byte) (s : State) :
    readByte sp c (writeByte sp a b s) = readByte sp c s := by
  simp [readByte, writeByte, find_write_other _ _ h]

theorem readByte_writeByte_space {sp sp' : Space} (h : sp ≠ sp') (a c : Nat) (b : Byte) (s : State) :
    readByte sp c (writeByte sp' a b s) = readByte sp c s :=
  readByte_congr (memOf_setMem_other h _ _) (by simp)

/-- What a run of bytes written from a base reads back as, address by address. -/
theorem readByte_writeBytes (sp : Space) (a c : Nat) (bs : List Byte) (s : State) :
    readByte sp c (writeBytes sp a bs s) =
      if a ≤ c ∧ c < a + bs.length then bs.getD (c - a) 0 else readByte sp c s := by
  simp only [readByte, writeBytes, memOf_setMem_same, setMem_epoch, find_writeList]
  by_cases h : a ≤ c ∧ c < a + bs.length
  · have hk : c - a < bs.length := by omega
    simp [h, List.getElem?_eq_getElem hk]
  · simp only [if_neg h]

theorem readByte_writeBytes_space {sp sp' : Space} (h : sp ≠ sp') (a c : Nat) (bs : List Byte) (s : State) :
    readByte sp c (writeBytes sp' a bs s) = readByte sp c s :=
  readByte_congr (memOf_setMem_other h _ _) (by simp)

@[simp] theorem readBytes_length (sp : Space) (n : Nat) : ∀ (a : Nat) (s : State), (readBytes sp a n s).length = n := by
  induction n with
  | zero => intro a s; rfl
  | succ n ih => intro a s; simp [readBytes, ih]

theorem readBytes_getD (sp : Space) (n : Nat) : ∀ (a k : Nat) (s : State), k < n →
    (readBytes sp a n s).getD k 0 = readByte sp (a + k) s := by
  induction n with
  | zero => intro a k s h; omega
  | succ n ih =>
    intro a k s h
    cases k with
    | zero => simp [readBytes]
    | succ k =>
      simp only [readBytes, List.getD_cons_succ]
      rw [ih _ _ _ (by omega)]
      congr 1; omega

@[simp] theorem readByte_withSeq (sp a) (s : State) (q) : readByte sp a { s with seq := q } = readByte sp a s :=
  readByte_congr (by simp) rfl
@[simp] theorem readByte_withReg (sp a) (s : State) (r) : readByte sp a { s with reg := r } = readByte sp a s :=
  readByte_congr (by simp) rfl
@[simp] theorem readByte_withRegSeq (sp a) (s : State) (r q) :
    readByte sp a { s with reg := r, seq := q } = readByte sp a s := readByte_congr (by simp) rfl
@[simp] theorem readByte_withAgenda (sp a) (s : State) (l) : readByte sp a { s with agenda := l } = readByte sp a s :=
  readByte_congr (by simp) rfl
@[simp] theorem readByte_withHostData (sp a) (s : State) (w) :
    readByte sp a { s with hostData := w } = readByte sp a s := readByte_congr (by simp) rfl
@[simp] theorem readByte_raiseError (sp a e row v) (s : State) : readByte sp a (raiseError e row v s) = readByte sp a s :=
  readByte_congr (by simp) rfl
@[simp] theorem readByte_drawByte (sp a) (s : State) : readByte sp a (drawByte s).2 = readByte sp a s :=
  readByte_congr (by simp) rfl

/-- A byte written below the capacity keeps its store canonical and within the capacity, and the others as they are. -/
theorem storeOk_writeByte {s : State} {sp' : Space} {a : Nat} {b : Byte}
    (h : ∀ sp, Memory.wf (memOf sp s) ∧ Memory.below (s.params.capacity sp) (memOf sp s))
    (ha : a < s.params.capacity sp') (sp : Space) :
    Memory.wf (memOf sp (writeByte sp' a b s)) ∧
      Memory.below ((writeByte sp' a b s).params.capacity sp) (memOf sp (writeByte sp' a b s)) := by
  by_cases hs : sp = sp'
  · subst hs
    simp only [writeByte, memOf_setMem_same, setMem_params]
    exact ⟨wf_write (h sp).1 a b, below_write (h sp).2 ha b⟩
  · simp only [writeByte, memOf_setMem_other hs, setMem_params]
    exact h sp

/-- Bytes written below the capacity keep their store canonical and within the capacity, and the others as they are. -/
theorem storeOk_writeBytes {s : State} {sp' : Space} {a : Nat} {bs : List Byte}
    (h : ∀ sp, Memory.wf (memOf sp s) ∧ Memory.below (s.params.capacity sp) (memOf sp s))
    (ha : a + bs.length ≤ s.params.capacity sp') (sp : Space) :
    Memory.wf (memOf sp (writeBytes sp' a bs s)) ∧
      Memory.below ((writeBytes sp' a bs s).params.capacity sp) (memOf sp (writeBytes sp' a bs s)) := by
  by_cases hs : sp = sp'
  · subst hs
    simp only [writeBytes, memOf_setMem_same, setMem_params]
    exact ⟨wf_writeList bs (h sp).1 a, below_writeList bs (h sp).2 ha⟩
  · simp only [writeBytes, memOf_setMem_other hs, setMem_params]
    exact h sp

/-- The epoch's free value is what an address reads as until something writes it. -/
theorem readByte_unwritten {sp : Space} {s : State} (h : memOf sp s = []) (a : Nat) :
    readByte sp a s = Config.unwritten sp s.epoch a := by
  simp [readByte, h, Memory.find]

end Sys2Proof.Machine
end

