-- ==== Sys2Proof/Laws/PerInstr.lean ====
section
/-! SUPPORT. What holds of each instruction as syntax: its opcode byte (30_encoding R59, R71; opcode_table.json). -/

namespace Sys2Proof.Laws.OpcodeByte

/-- The opcode byte of an instruction is its row's match under the row's mask 0xFF, decodes to the instruction and to no
other, and is the only byte that does; the decoder reads the same from the row's table word. -/
def Statement (i : Instr) : Prop :=
  i.wf = true ∧ decodeFilter (encodeFilter i) = .instr i ∧ (∀ v : Byte, decodeFilter v = .instr i → v = encodeFilter i) ∧
    decodeTableWord 8 (encodeFilter i).toNat = some i

theorem none : Statement .none := by unfold Statement; decide
theorem sub : Statement .sub := by unfold Statement; decide
theorem up : Statement .up := by unfold Statement; decide
theorem avg : Statement .avg := by unfold Statement; decide
theorem paeth : Statement .paeth := by unfold Statement; decide

end Sys2Proof.Laws.OpcodeByte
end

