-- ==== Sys2Proof/Laws/Row.lean ====
section
/-! SUPPORT. The row function of 41_defilter R86, byte by byte. -/

namespace Sys2Proof.Machine

@[simp] theorem reconBytes_length (aw : AvgSumWidth) (ft : Instr) (bpp : Nat) (prev : List Byte) (k : Nat)
    (cur : List Byte) : (reconBytes aw ft bpp prev k cur).length = cur.length := by
  induction k with
  | zero => rfl
  | succ k ih => simp [reconBytes, ih]

/-- Bytes from k up are still the filtered ones after k bytes (20_memory R54). -/
theorem reconBytes_from (aw : AvgSumWidth) (ft : Instr) (bpp : Nat) (prev cur : List Byte) (k : Nat) :
    ∀ i, k ≤ i → (reconBytes aw ft bpp prev k cur).getD i 0 = cur.getD i 0 := by
  induction k with
  | zero => intros; rfl
  | succ k ih =>
    intro i hi
    simp only [reconBytes]
    rw [← ih i (by omega)]
    simp [List.getD_eq_getElem?_getD, List.getElem?_set_ne (by omega : k ≠ i)]

/-- A byte once reconstructed stays (20_memory R54; 41_defilter R99). -/
theorem reconBytes_below (aw : AvgSumWidth) (ft : Instr) (bpp : Nat) (prev cur : List Byte) {k i : Nat} (h : i < k) :
    (reconBytes aw ft bpp prev (k + 1) cur).getD i 0 = (reconBytes aw ft bpp prev k cur).getD i 0 := by
  simp [reconBytes, List.getD_eq_getElem?_getD, List.getElem?_set_ne (by omega : k ≠ i)]

/-- The byte that the step of index k stores (41_defilter R82). -/
theorem reconBytes_at (aw : AvgSumWidth) (ft : Instr) (bpp : Nat) (prev cur : List Byte) {k : Nat} (h : k < cur.length) :
    (reconBytes aw ft bpp prev (k + 1) cur).getD k 0 =
      wrap8 (byteInt (cur.getD k 0) +
        predictor aw ft (leftOf bpp (reconBytes aw ft bpp prev k cur) k) (prev.getD k 0) (leftOf bpp prev k)) := by
  simp only [reconBytes]
  rw [List.getD_eq_getElem?_getD, List.getElem?_set_self (by rw [reconBytes_length]; exact h)]
  simp only [Option.getD_some]
  rw [reconBytes_from aw ft bpp prev cur k k (Nat.le_refl _)]

end Sys2Proof.Machine
end

