-- ==== Sys2Proof/Laws/Step.lean ====
section
/-! SUPPORT. For each step, once: when it answers a next state, and everything it can then have done. -/

namespace Sys2Proof.Machine

/-! Runs of the machine. -/

/-- A run of one step more goes on from the next state. -/
theorem run_next {s t : State} (h : step s = .next t) (n : Nat) :
    Host.Core.run Sys2Proof.core (n + 1) s = Host.Core.run Sys2Proof.core n t := by
  have h' : Sys2Proof.core.step s = .next t := h
  simp only [Host.Core.run, h']

/-- A run that answers a next state can be carried on. -/
theorem run_add (m n : Nat) : ∀ {s t : State}, Host.Core.run Sys2Proof.core m s = .next t →
    Host.Core.run Sys2Proof.core (m + n) s = Host.Core.run Sys2Proof.core n t := by
  induction m with
  | zero => intro s t h; cases h; rw [Nat.zero_add]
  | succ m ih =>
    intro s t h
    simp only [Host.Core.run] at h
    split at h
    · next u hu => rw [Nat.add_right_comm, run_next hu]; exact ih h
    · cases h
    · cases h

/-! Whose turn it is. -/

/-- When the engine moves, a step is the engine's step on the state without the turn. -/
theorem step_engine {s : State} (h : engineTurn s = true) : step s = engineStep (afterTurn s) := by
  obtain ⟨p, r, q, i, ra, pi, cu, pr, d, e, hd, ag⟩ := s
  match ag with
  | [] => rfl
  | .engine :: _ => rfl
  | .host _ :: _ => exact absurd h (by simp [engineTurn])

/-- When the outside moves, a step is its access on the state without the turn. -/
theorem step_host {s : State} {a : HostAccess} {rest : List Turn} (h : s.agenda = .host a :: rest) :
    step s = hostStep a { s with agenda := rest } := by
  simp only [step, h]

/-- With nothing on the agenda a step is the engine's. -/
theorem step_idle_agenda {s : State} (h : s.agenda = []) : step s = engineStep s := by
  simp only [step, h]

/-- A step is the engine's, or an access of the outside. -/
theorem step_cases (s : State) :
    (engineTurn s = true ∧ step s = engineStep (afterTurn s)) ∨
      ∃ a rest, s.agenda = .host a :: rest ∧ step s = hostStep a { s with agenda := rest } := by
  cases h : engineTurn s
  · right
    unfold engineTurn at h
    split at h
    · exact absurd h (by simp)
    · exact absurd h (by simp)
    · next a rest ha => exact ⟨a, rest, ha, step_host ha⟩
  · exact .inl ⟨rfl, step_engine h⟩

@[simp] theorem afterTurn_params (s) : (afterTurn s).params = s.params := rfl
@[simp] theorem afterTurn_reg (s) : (afterTurn s).reg = s.reg := rfl
@[simp] theorem afterTurn_seq (s) : (afterTurn s).seq = s.seq := rfl
@[simp] theorem afterTurn_draws (s) : (afterTurn s).draws = s.draws := rfl
@[simp] theorem afterTurn_memOf (sp s) : memOf sp (afterTurn s) = memOf sp s := by cases sp <;> rfl
@[simp] theorem afterTurn_readByte (sp a s) : readByte sp a (afterTurn s) = readByte sp a s :=
  readByte_congr (by simp) rfl

/-! The filter types. -/

/-- The value a RECON step of filter type ft stores at SEQ.i. -/
def reconValue (ft : Instr) (g : Geometry) (s : State) : Byte :=
  let o := rowOperands (bytesPerPixel g) s.seq.i s
  wrap8 (byteInt o.x + predictor s.params.avgSumWidth ft o.a o.b o.c)

/-- Every filter type's step is the shared one, with its predictor of the table. -/
theorem exec_eq_reconStep (ft : Instr) (s : State) :
    exec ft s = reconStep (fun o => predictor s.params.avgSumWidth ft o.a o.b o.c) s := by
  cases ft <;> rfl

/-- A filter type's step completes wherever the geometry is known and the byte exists. -/
theorem exec_completes {s : State} {g : Geometry} (hg : geometry s.reg = some g) (hi : s.seq.i < s.params.rowCap)
    (ft : Instr) :
    exec ft s = .next (advanceRecon (scanLength g) (writeByte .cur s.seq.i (reconValue ft g s) s)) := by
  simp only [exec_eq_reconStep, reconStep, hg, if_pos hi, reconValue]

/-- What a filter type's step can have done when it answers a next state. -/
theorem exec_next {ft : Instr} {s t : State} (h : exec ft s = .next t) :
    ∃ g, geometry s.reg = some g ∧ s.seq.i < s.params.rowCap ∧
      t = advanceRecon (scanLength g) (writeByte .cur s.seq.i (reconValue ft g s) s) := by
  simp only [exec_eq_reconStep, reconStep] at h
  split at h
  · cases h
  · next g hg =>
    split at h
    · next hi => cases h; exact ⟨g, hg, hi, rfl⟩
    · cases h

/-! The other stages of the engine. -/

/-- What CHECK does: it always answers a next state, an error or the first row's fetch. -/
theorem checkStep_cases (s : State) :
    (∃ e, startChecks s = .error e ∧ checkStep s = .next (raiseError e.1 0 e.2 s)) ∨
    (∃ g, startChecks s = .ok g ∧
      checkStep s = .next
        { writeBytes .prev 0 (List.replicate (scanLength g) 0) s with seq := { s.seq with y := 0, stage := .rowFetch } }) := by
  unfold checkStep
  split
  · next e he => exact .inl ⟨e, he, rfl⟩
  · next g hg => exact .inr ⟨g, hg, by simp⟩

/-- What ROW_FETCH can have done when it answers a next state. -/
theorem rowFetchStep_next {s t : State} (h : rowFetchStep s = .next t) :
    ∃ g, geometry s.reg = some g ∧
      ((s.reg.inLen.toNat < s.seq.y * rowStride g + rowStride g ∧ t = raiseError .rangeDefilter s.seq.y 0 s) ∨
       (s.seq.y * rowStride g + rowStride g ≤ s.reg.inLen.toNat ∧ s.seq.y * rowStride g + rowStride g ≤ s.params.inCap ∧
        ((∃ v, decodeFilter (readByte .inp (s.seq.y * rowStride g) s) = .badFilter v ∧
            t = raiseError .badFilter s.seq.y v s) ∨
         (∃ i, decodeFilter (readByte .inp (s.seq.y * rowStride g) s) = .instr i ∧ scanLength g ≤ s.params.rowCap ∧
            t = { writeBytes .cur 0 (readBytes .inp (s.seq.y * rowStride g + 1) (scanLength g) s) s with
              seq := { s.seq with
                ft := readByte .inp (s.seq.y * rowStride g) s, i := 0, stage := .recon } })))) := by
  simp only [rowFetchStep] at h
  split at h
  · cases h
  · next g hg =>
    refine ⟨g, hg, ?_⟩
    split at h
    · next h1 => cases h; exact .inl ⟨h1, rfl⟩
    · next h1 =>
      split at h
      · cases h
      · next h2 =>
        refine .inr ⟨by omega, by omega, ?_⟩
        split at h
        · next v hv => cases h; exact .inl ⟨v, hv, rfl⟩
        · next i hi =>
          split at h
          · cases h
          · next h3 => cases h; exact .inr ⟨i, hi, by omega, by simp⟩

/-- What COMMIT can have done when it answers a next state. -/
theorem commitStep_next {s t : State} (h : commitStep s = .next t) :
    ∃ g, geometry s.reg = some g ∧ scanLength g ≤ s.params.rowCap ∧
      s.seq.y * scanLength g + scanLength g ≤ s.params.rawCap ∧
      t = advanceCommit g.height (writeBytes .prev 0 (readBytes .cur 0 (scanLength g) s)
        (writeBytes .raw (s.seq.y * scanLength g) (readBytes .cur 0 (scanLength g) s) s)) := by
  simp only [commitStep] at h
  split at h
  · cases h
  · next g hg =>
    split at h
    · cases h
    · split at h
      · cases h
      · cases h; exact ⟨g, hg, by omega, by omega, rfl⟩

/-- What ASM_CHECK can have done when it answers a next state. -/
theorem asmCheckStep_next {s t : State} (h : asmCheckStep s = .next t) :
    ∃ g, geometry s.reg = some g ∧
      ((assemblerFits s.params.asmOobPolicy g = true ∧
          t = { s with seq := { s.seq with y := 0, x := 0, stage := .pixel } }) ∨
       (assemblerFits s.params.asmOobPolicy g = false ∧ t = raiseError .rangeAssemble 0 0 s)) := by
  simp only [asmCheckStep] at h
  split at h
  · cases h
  · next g hg =>
    refine ⟨g, hg, ?_⟩
    split at h
    · next h1 => cases h; exact .inl ⟨h1, rfl⟩
    · next h1 => cases h; exact .inr ⟨by simpa using h1, rfl⟩

/-- The three samples of a pixel and the state after their draws (42_assembler R102, R103). -/
def samples (g : Geometry) (o : Nat) (s : State) : List Byte × State :=
  let r := rawByte g o s
  let gr := rawByte g (o + 1) r.2
  let b := rawByte g (o + 2) gr.2
  ([r.1, gr.1, b.1, 255], b.2)

/-- What PIXEL can have done when it answers a next state. -/
theorem pixelStep_next {s t : State} (h : pixelStep s = .next t) :
    ∃ g, geometry s.reg = some g ∧
      min (bytesPerPixel g * (g.width * s.seq.y + s.seq.x) + 3) (rawLength g) ≤ s.params.rawCap ∧
      4 * (s.seq.y * g.width + s.seq.x) + 4 ≤ s.params.pixCap ∧
      t = advancePixel g (writeBytes .pix (4 * (s.seq.y * g.width + s.seq.x))
        (samples g (bytesPerPixel g * (g.width * s.seq.y + s.seq.x)) s).1
        (samples g (bytesPerPixel g * (g.width * s.seq.y + s.seq.x)) s).2) := by
  simp only [pixelStep] at h
  split at h
  · cases h
  · next g hg =>
    split at h
    · cases h
    · split at h
      · cases h
      · cases h; exact ⟨g, hg, by omega, by omega, rfl⟩

/-- A raw sample changes at most the count of draws. -/
theorem rawByte_state (g : Geometry) (k : Nat) (s : State) :
    (rawByte g k s).2 = { s with draws := s.draws + if k < rawLength g then 0 else 1 } := by
  unfold rawByte
  split <;> simp [drawByte]

/-- A raw sample is the raw byte inside the stream and the next draw past it. -/
theorem rawByte_value (g : Geometry) (k : Nat) (s : State) :
    (rawByte g k s).1 = if k < rawLength g then readByte .raw k s else Config.drawByte s.draws := by
  unfold rawByte
  split <;> simp

/-- The samples of a pixel change at most the count of draws. -/
theorem samples_state (g : Geometry) (o : Nat) (s : State) :
    ∃ d, (samples g o s).2 = { s with draws := d } := by
  simp only [samples, rawByte_state]
  exact ⟨_, rfl⟩

@[simp] theorem samples_length (g : Geometry) (o : Nat) (s : State) : (samples g o s).1.length = 4 := rfl

/-! Each stage completes wherever the geometry is known and the bytes it touches exist. -/

theorem rowFetchStep_completes {s : State} {g : Geometry} {i : Instr} (hg : geometry s.reg = some g)
    (h1 : s.seq.y * rowStride g + rowStride g ≤ s.reg.inLen.toNat)
    (h2 : s.seq.y * rowStride g + rowStride g ≤ s.params.inCap) (h3 : scanLength g ≤ s.params.rowCap)
    (hi : decodeFilter (readByte .inp (s.seq.y * rowStride g) s) = .instr i) :
    rowFetchStep s = .next
      { writeBytes .cur 0 (readBytes .inp (s.seq.y * rowStride g + 1) (scanLength g) s) s with
        seq := { s.seq with ft := readByte .inp (s.seq.y * rowStride g) s, i := 0, stage := .recon } } := by
  simp only [rowFetchStep, hg, if_neg (Nat.not_lt.2 h1), if_neg (Nat.not_lt.2 h2), if_neg (Nat.not_lt.2 h3), hi]
  rfl

theorem rowFetchStep_badFilter {s : State} {g : Geometry} {v : Byte} (hg : geometry s.reg = some g)
    (h1 : s.seq.y * rowStride g + rowStride g ≤ s.reg.inLen.toNat)
    (h2 : s.seq.y * rowStride g + rowStride g ≤ s.params.inCap)
    (hv : decodeFilter (readByte .inp (s.seq.y * rowStride g) s) = .badFilter v) :
    rowFetchStep s = .next (raiseError .badFilter s.seq.y v s) := by
  simp only [rowFetchStep, hg, if_neg (Nat.not_lt.2 h1), if_neg (Nat.not_lt.2 h2), hv]

theorem rowFetchStep_short {s : State} {g : Geometry} (hg : geometry s.reg = some g)
    (h : s.reg.inLen.toNat < s.seq.y * rowStride g + rowStride g) :
    rowFetchStep s = .next (raiseError .rangeDefilter s.seq.y 0 s) := by
  simp only [rowFetchStep, hg, if_pos h]

theorem commitStep_completes {s : State} {g : Geometry} (hg : geometry s.reg = some g)
    (h1 : scanLength g ≤ s.params.rowCap) (h2 : s.seq.y * scanLength g + scanLength g ≤ s.params.rawCap) :
    commitStep s = .next (advanceCommit g.height (writeBytes .prev 0 (readBytes .cur 0 (scanLength g) s)
      (writeBytes .raw (s.seq.y * scanLength g) (readBytes .cur 0 (scanLength g) s) s))) := by
  simp only [commitStep, hg, if_neg (Nat.not_lt.2 h1), if_neg (Nat.not_lt.2 h2)]

theorem asmCheckStep_completes {s : State} {g : Geometry} (hg : geometry s.reg = some g) :
    asmCheckStep s = .next (if assemblerFits s.params.asmOobPolicy g then
      { s with seq := { s.seq with y := 0, x := 0, stage := .pixel } } else raiseError .rangeAssemble 0 0 s) := by
  simp only [asmCheckStep, hg]
  split <;> rfl

theorem pixelStep_completes {s : State} {g : Geometry} (hg : geometry s.reg = some g)
    (h1 : min (bytesPerPixel g * (g.width * s.seq.y + s.seq.x) + 3) (rawLength g) ≤ s.params.rawCap)
    (h2 : 4 * (s.seq.y * g.width + s.seq.x) + 4 ≤ s.params.pixCap) :
    pixelStep s = .next (advancePixel g (writeBytes .pix (4 * (s.seq.y * g.width + s.seq.x))
      (samples g (bytesPerPixel g * (g.width * s.seq.y + s.seq.x)) s).1
      (samples g (bytesPerPixel g * (g.width * s.seq.y + s.seq.x)) s).2)) := by
  simp only [pixelStep, hg, if_neg (Nat.not_lt.2 h1), if_neg (Nat.not_lt.2 h2)]
  rfl

/-! Moving on changes SEQ and STATUS.PHASE only. -/

@[simp] theorem advanceRecon_memOf (len sp s) : memOf sp (advanceRecon len s) = memOf sp s := memOf_withSeq ..
@[simp] theorem advanceRecon_readByte (len sp a s) : readByte sp a (advanceRecon len s) = readByte sp a s :=
  readByte_withSeq ..

theorem advanceCommit_eq (height : Nat) (s : State) :
    advanceCommit height s = { s with
      reg := { s.reg with phase := if s.seq.y + 1 = height then .assemble else s.reg.phase }
      seq := { s.seq with
        y := s.seq.y + 1, stage := if s.seq.y + 1 = height then .asmCheck else .rowFetch } } := by
  unfold advanceCommit
  split <;> rfl

@[simp] theorem advanceCommit_memOf (height sp s) : memOf sp (advanceCommit height s) = memOf sp s := by
  rw [advanceCommit_eq]; exact memOf_withRegSeq ..
@[simp] theorem advanceCommit_readByte (height sp a s) : readByte sp a (advanceCommit height s) = readByte sp a s := by
  rw [advanceCommit_eq]; exact readByte_withRegSeq ..

theorem advancePixel_eq (g : Geometry) (s : State) :
    advancePixel g s =
      let x := if s.seq.x + 1 = g.width then 0 else s.seq.x + 1
      let y := if s.seq.x + 1 = g.width then s.seq.y + 1 else s.seq.y
      { s with
        reg := { s.reg with phase := if y = g.height then .done else s.reg.phase }
        seq := { s.seq with x := x, y := y, stage := if y = g.height then .halt else s.seq.stage } } := by
  unfold advancePixel
  dsimp only
  by_cases h1 : s.seq.x + 1 = g.width
  · simp only [h1, if_true]
    split <;> rfl
  · simp only [h1, if_false]
    split <;> rfl

@[simp] theorem advancePixel_memOf (g sp s) : memOf sp (advancePixel g s) = memOf sp s := by
  rw [advancePixel_eq]; exact memOf_withRegSeq ..
@[simp] theorem advancePixel_readByte (g sp a s) : readByte sp a (advancePixel g s) = readByte sp a s := by
  rw [advancePixel_eq]; exact readByte_withRegSeq ..
@[simp] theorem advancePixel_draws (g s) : (advancePixel g s).draws = s.draws := by
  rw [advancePixel_eq]

/-- The engine's step is that of its stage. -/
theorem engineStep_halt {s : State} (h : s.seq.stage = .halt) : engineStep s = .next s := by
  simp only [engineStep, h]
theorem engineStep_check {s : State} (h : s.seq.stage = .check) : engineStep s = checkStep s := by
  simp only [engineStep, h]
theorem engineStep_rowFetch {s : State} (h : s.seq.stage = .rowFetch) : engineStep s = rowFetchStep s := by
  simp only [engineStep, h]
theorem engineStep_recon {s : State} {i : Instr} (h : s.seq.stage = .recon) (hi : decodeFilter s.seq.ft = .instr i) :
    engineStep s = exec i s := by
  simp only [engineStep, h, reconStageStep, hi]
theorem engineStep_commit {s : State} (h : s.seq.stage = .commit) : engineStep s = commitStep s := by
  simp only [engineStep, h]
theorem engineStep_asmCheck {s : State} (h : s.seq.stage = .asmCheck) : engineStep s = asmCheckStep s := by
  simp only [engineStep, h]
theorem engineStep_pixel {s : State} (h : s.seq.stage = .pixel) : engineStep s = pixelStep s := by
  simp only [engineStep, h]

/-- When RECON answers a next state, the latched filter type decodes and its step ran. -/
theorem engineStep_recon_next {s t : State} (h : s.seq.stage = .recon) (ht : engineStep s = .next t) :
    ∃ i, decodeFilter s.seq.ft = .instr i ∧ exec i s = .next t := by
  simp only [engineStep, h, reconStageStep] at ht
  split at ht
  · next i hi => exact ⟨i, hi, ht⟩
  · cases ht

/-- Which stage's step an engine step that answers a next state was. -/
theorem engineStep_cases {s t : State} (h : engineStep s = .next t) :
    (s.seq.stage = .halt ∧ t = s) ∨ (s.seq.stage = .check ∧ checkStep s = .next t) ∨
    (s.seq.stage = .rowFetch ∧ rowFetchStep s = .next t) ∨
    (s.seq.stage = .recon ∧ ∃ i, decodeFilter s.seq.ft = .instr i ∧ exec i s = .next t) ∨
    (s.seq.stage = .commit ∧ commitStep s = .next t) ∨ (s.seq.stage = .asmCheck ∧ asmCheckStep s = .next t) ∨
    (s.seq.stage = .pixel ∧ pixelStep s = .next t) := by
  cases hst : s.seq.stage
  · rw [engineStep_halt hst] at h; cases h; simp
  · rw [engineStep_check hst] at h; simp [h]
  · rw [engineStep_rowFetch hst] at h; simp [h]
  · simp [engineStep_recon_next hst h]
  · rw [engineStep_commit hst] at h; simp [h]
  · rw [engineStep_asmCheck hst] at h; simp [h]
  · rw [engineStep_pixel hst] at h; simp [h]

/-- What CHECK can have done when it answers a next state. -/
theorem checkStep_next {s t : State} (h : checkStep s = .next t) :
    (∃ e, startChecks s = .error e ∧ t = raiseError e.1 0 e.2 s) ∨
    (∃ g, startChecks s = .ok g ∧
      t = { writeBytes .prev 0 (List.replicate (scanLength g) 0) s with
        seq := { s.seq with y := 0, stage := .rowFetch } }) := by
  rcases checkStep_cases s with ⟨e, h1, h2⟩ | ⟨g, h1, h2⟩
  · rw [h2] at h; cases h; exact .inl ⟨e, h1, rfl⟩
  · rw [h2] at h; cases h; exact .inr ⟨g, h1, rfl⟩

/-- A filter type decodes exactly when it is below 5 (30_encoding R59, R60). -/
theorem decodeFilter_cases (v : Byte) :
    (v.toNat < 5 ∧ ∃ i, decodeFilter v = .instr i) ∨ (5 ≤ v.toNat ∧ decodeFilter v = .badFilter v) := by
  unfold decodeFilter
  split <;> first | exact .inl ⟨by omega, _, rfl⟩ | skip
  next h0 h1 h2 h3 h4 =>
    refine .inr ⟨?_, rfl⟩
    have : v.toNat ≠ 0 := h0
    have : v.toNat ≠ 1 := h1
    have : v.toNat ≠ 2 := h2
    have : v.toNat ≠ 3 := h3
    have : v.toNat ≠ 4 := h4
    omega

/-! What the outside can have done when its access is admitted. -/

/-- A write of a register changes registers, and the stage if it is a START. -/
theorem writeRegister_cases (off : Nat) (w : Word) (s : State) :
    writeRegister off w s = s ∨ (off = 0 ∧ w.getLsbD 0 = true ∧ busy s.reg = false ∧ writeRegister off w s = startCommand s) ∨
    (busy s.reg = false ∧ ∃ r : Regs, writeRegister off w s = { s with reg := r } ∧ r.phase = s.reg.phase ∧
      r.errCode = s.reg.errCode ∧ r.errRow = s.reg.errRow ∧ r.errValue = s.reg.errValue) := by
  cases hb : busy s.reg
  · unfold writeRegister writeConfig
    split
    · split
      · next h => exact .inr (.inl ⟨rfl, h, rfl, rfl⟩)
      · exact .inl rfl
    all_goals first
      | exact .inl rfl
      | (simp only [hb, Bool.false_eq_true, if_false]; exact .inr (.inr ⟨trivial, _, rfl, rfl, rfl, rfl, rfl⟩))
  · left
    unfold writeRegister writeConfig
    split <;> simp [hb, startCommand]

/-- What an access of the outside can have done when it answers a next state. -/
theorem hostStep_next {a : HostAccess} {s t : State} (h : hostStep a s = .next t) :
    (∃ off bytes, a = .readReg off bytes ∧ admittedRegister off bytes = true ∧ t = { s with hostData := readRegister off s.reg }) ∨
    (∃ off bytes w, a = .writeReg off bytes w ∧ admittedRegister off bytes = true ∧ t = writeRegister off w s) ∨
    (∃ m addr bytes, a = .readMem m addr bytes ∧ admittedMemory m addr bytes s = true ∧
      t = { (readMemory m addr s).2 with hostData := (readMemory m addr s).1.setWidth 32 }) ∨
    (∃ addr bytes v, a = .writeMem .inp addr bytes v ∧ busy s.reg = false ∧ addr < s.params.inCap ∧
      t = writeByte .inp addr v s) ∨
    (a = .reset ∧ t = platformReset s) := by
  cases a with
  | readReg off bytes =>
    simp only [hostStep] at h
    split at h
    · next ha => cases h; exact .inl ⟨off, bytes, rfl, ha, rfl⟩
    · cases h
  | writeReg off bytes w =>
    simp only [hostStep] at h
    split at h
    · next ha => cases h; exact .inr (.inl ⟨off, bytes, w, rfl, ha, rfl⟩)
    · cases h
  | readMem m addr bytes =>
    simp only [hostStep] at h
    split at h
    · next ha => cases h; exact .inr (.inr (.inl ⟨m, addr, bytes, rfl, ha, rfl⟩))
    · cases h
  | writeMem m addr bytes v =>
    simp only [hostStep] at h
    split at h
    · next ha =>
      split at h
      · cases h
      · next hb =>
        cases m with
        | inp =>
          cases h
          refine .inr (.inr (.inr (.inl ⟨addr, bytes, v, rfl, by simpa using hb, ?_, rfl⟩)))
          simp only [admittedMemory, Bool.and_eq_true, decide_eq_true_eq] at ha
          exact ha.2
        | raw => cases h
        | pix => cases h
    · cases h
  | reset =>
    simp only [hostStep] at h
    cases h
    exact .inr (.inr (.inr (.inr ⟨rfl, rfl⟩)))

/-- A host read of memory changes at most the count of draws. -/
theorem readMemory_state (m : HostMem) (addr : Nat) (s : State) :
    ∃ d, (readMemory m addr s).2 = { s with draws := d } := by
  unfold readMemory
  split
  · exact ⟨s.draws, rfl⟩
  · split
    · exact ⟨s.draws + 1, rfl⟩
    · exact ⟨s.draws, rfl⟩
  · split
    · exact ⟨s.draws + 1, rfl⟩
    · exact ⟨s.draws, rfl⟩

/-- A host read of memory while not BUSY gives the addressed byte and changes nothing (20_memory R48). -/
theorem readMemory_idle {s : State} (h : busy s.reg = false) (m : HostMem) (addr : Nat) :
    readMemory m addr s = (readByte (hostSpace m) addr s, s) := by
  cases m <;> simp [readMemory, h, hostSpace]

/-- An admitted register access is an aligned word of the window (20_memory R40). -/
theorem admittedRegister_iff (off bytes : Nat) :
    admittedRegister off bytes = true ↔ bytes = 4 ∧ off % 4 = 0 ∧ off ≤ 0x3C := by
  simp [admittedRegister, and_assoc]

/-- An admitted memory access is one byte at a valid address (20_memory R40). -/
theorem admittedMemory_iff (m : HostMem) (addr bytes : Nat) (s : State) :
    admittedMemory m addr bytes s = true ↔ bytes = 1 ∧ addr < s.params.capacity (hostSpace m) := by
  simp [admittedMemory]

/-! The start checks. -/

/-- Passing the start checks says what 60_exceptions R111 checks. -/
theorem startChecks_ok {s : State} {g : Geometry} (h : startChecks s = .ok g) :
    geometry s.reg = some g ∧ s.reg.width ≠ 0 ∧ s.reg.height ≠ 0 ∧ legalDepth s.reg.bitDepth = true ∧
      s.reg.inLen.toNat ≤ s.params.inCap ∧ scanLength g ≤ s.params.rowCap ∧ rawLength g ≤ s.params.rawCap ∧
      4 * pixelCount g ≤ s.params.pixCap := by
  simp only [startChecks] at h
  split at h
  · cases h
  · next h1 =>
    split at h
    · cases h
    · next h2 =>
      split at h
      · cases h
      · next h3 =>
        split at h
        · cases h
        · next h4 =>
          split at h
          · cases h
          · next g' hg =>
            split at h
            · cases h
            · split at h
              · cases h
              · split at h
                · cases h
                · cases h
                  exact ⟨hg, h1, h2, by simpa using h3, by omega, by omega, by omega, by omega⟩

/-- The start checks fail with CONFIG, or with UNKNOWN_COLOR_TYPE and the colour type. -/
theorem startChecks_error {s : State} {e : ErrCode × Byte} (h : startChecks s = .error e) :
    e = (.config, 0) ∨ (e = (.unknownColorType, s.reg.colorType) ∧ geometry s.reg = none) := by
  simp only [startChecks] at h
  repeat' split at h
  all_goals first
    | (cases h; left; rfl)
    | (cases h; right; exact ⟨rfl, by assumption⟩)
    | cases h

/-- The start checks read the parameters and the configuration only. -/
theorem startChecks_congr {s t : State} (hp : t.params = s.params) (hw : t.reg.width = s.reg.width)
    (hh : t.reg.height = s.reg.height) (hd : t.reg.bitDepth = s.reg.bitDepth) (hc : t.reg.colorType = s.reg.colorType)
    (hi : t.reg.inLen = s.reg.inLen) : startChecks t = startChecks s := by
  have hg : geometry t.reg = geometry s.reg := by simp only [geometry, hw, hh, hd, hc]
  simp only [startChecks, hp, hw, hh, hd, hc, hi, hg]

@[simp] theorem startChecks_afterTurn (s : State) : startChecks (afterTurn s) = startChecks s :=
  startChecks_congr rfl rfl rfl rfl rfl rfl

/-- A geometry's width and height are the registers'. -/
theorem geometry_some {r : Regs} {g : Geometry} (h : geometry r = some g) :
    g.width = r.width.toNat ∧ g.height = r.height.toNat ∧ bitsPerPixel r.colorType r.bitDepth = some g.bits := by
  simp only [geometry] at h
  split at h
  · cases h
  · next b hb => cases h; exact ⟨rfl, rfl, hb⟩

/-- A job that has passed the start checks has a row and a column, and its height fits ERR_ROW. -/
theorem startChecks_dims {s : State} {g : Geometry} (h : startChecks s = .ok g) :
    1 ≤ g.width ∧ 1 ≤ g.height ∧ g.height < 2 ^ 32 := by
  have hk := startChecks_ok h
  have hg := geometry_some hk.1
  have pos : ∀ w : Word, w ≠ 0 → 1 ≤ w.toNat := fun w hw =>
    Nat.one_le_iff_ne_zero.2 fun h0 => hw (BitVec.eq_of_toNat_eq (by simpa using h0))
  exact ⟨by rw [hg.1]; exact pos _ hk.2.1, by rw [hg.2.1]; exact pos _ hk.2.2.1, by rw [hg.2.1]; exact s.reg.height.isLt⟩

/-- A job that has passed the start checks has at least one byte a pixel and one a row (40_resolver R74, R76). -/
theorem startChecks_row {s : State} {g : Geometry} (h : startChecks s = .ok g) :
    1 ≤ bytesPerPixel g ∧ 1 ≤ scanLength g := by
  have hk := startChecks_ok h
  have hbits : 1 ≤ g.bits := by
    have hd := hk.2.2.2.1
    have hb := (geometry_some hk.1).2.2
    unfold legalDepth at hd
    unfold bitsPerPixel at hb
    split at hd <;> first | (split at hb <;> simp at hb <;> omega) | cases hd
  have := Nat.mul_pos hbits (startChecks_dims h).1
  simp only [bytesPerPixel, scanLength, rowStride, ceilDiv]
  omega

end Sys2Proof.Machine
end

