-- ==== Sys2Proof/Laws/Run.lean ====
section
/-! SUPPORT. Engine-only runs of a job (70_reset R138): so many steps from s to t, none of them taken from HALT. -/

namespace Sys2Proof.Machine

/-- n steps lead from s to t, and none of them is taken from HALT. -/
def reaches (n : Nat) (s t : State) : Prop :=
  Host.Core.run Sys2Proof.core n s = .next t ∧
    ∀ m, m < n → ∃ u : State, Host.Core.run Sys2Proof.core m s = .next u ∧ u.seq.stage ≠ .halt

theorem reaches_zero (s : State) : reaches 0 s s := ⟨rfl, by omega⟩

theorem reaches_add {n m : Nat} {s t u : State} (h : reaches n s t) (h' : reaches m t u) : reaches (n + m) s u := by
  refine ⟨(run_add n m h.1).trans h'.1, fun k hk => ?_⟩
  by_cases hl : k < n
  · exact h.2 k hl
  · obtain ⟨v, hv, hs⟩ := h'.2 (k - n) (by omega)
    refine ⟨v, ?_, hs⟩
    rw [show k = n + (k - n) by omega]
    exact (run_add n (k - n) h.1).trans hv

/-- One engine step with nothing on the agenda. -/
theorem reaches_one {s t : State} (ha : s.agenda = []) (hs : s.seq.stage ≠ .halt) (h : engineStep s = .next t) :
    reaches 1 s t := by
  refine ⟨?_, fun m hm => ⟨s, ?_, hs⟩⟩
  · rw [show 1 = 0 + 1 from rfl, run_next ((step_idle_agenda ha).trans h)]; rfl
  · obtain rfl : m = 0 := by omega
    rfl

end Sys2Proof.Machine
end

