-- ==== Sys2Proof/Tests/Slice0.lean ====
section
/-! SUPPORT. Tests: expected values from 95_test_vectors and the rules' own examples, and a witness for every statement
that has hypotheses. -/

namespace Sys2Proof.Tests

open Sys2Proof Sys2Proof.Machine

/-! ## Well-formedness: every check refuses an ill-formed term -/

def im22 : ImageLine := { width := 2, height := 2, bitDepth := 8, colorType := 2 }

theorem test_wf_instr : Instr.none.wf && Instr.sub.wf && Instr.up.wf && Instr.avg.wf && Instr.paeth.wf := by decide
theorem test_wf_scanline : Scanline.wf 3 { instr := .sub, data := [1, 2, 3] } := by decide
theorem test_wf_scanline_short : Scanline.wf 3 { instr := .sub, data := [1, 2] } = false := by decide
theorem test_wf_scanline_long : Scanline.wf 3 { instr := .sub, data := [1, 2, 3, 4] } = false := by decide
theorem test_wf_row_refused : ListingLine.wf 3 (.row { instr := .up, data := [1] }) = false := by decide
theorem test_wf_ft_refused : ListingLine.wf 3 (.ft 9 [1, 2]) = false := by decide
theorem test_wf_pad : ListingLine.wf 3 (.pad [1]) := by decide
theorem test_wf_width_refused : ImageLine.wf { im22 with width := 2 ^ 32 } = false := by decide
theorem test_wf_height_refused : ImageLine.wf { im22 with height := 2 ^ 32 } = false := by decide
theorem test_wf_depth_refused : ImageLine.wf { im22 with bitDepth := 256 } = false := by decide
theorem test_wf_color_refused : ImageLine.wf { im22 with colorType := 256 } = false := by decide
theorem test_wf_listing : Listing.wf 3 { image := im22, lines := [.ft 5 [1, 2, 3], .pad []] } := by decide
theorem test_wf_listing_image_refused :
    Listing.wf 3 { image := { im22 with width := 2 ^ 32 }, lines := [] } = false := by decide
theorem test_wf_listing_line_refused : Listing.wf 3 { image := im22, lines := [.ft 5 [1, 2]] } = false := by decide

theorem test_params_ok : Params.ofVectors.wf := by decide
theorem test_params_inCap : ¬ Params.wf { Params.ofVectors with inCap := 0 } := by decide
theorem test_params_inCap_high : ¬ Params.wf { Params.ofVectors with inCap := 2 ^ 32 } := by decide
theorem test_params_rawCap : ¬ Params.wf { Params.ofVectors with rawCap := 0 } := by decide
theorem test_params_rawCap_high : ¬ Params.wf { Params.ofVectors with rawCap := 2 ^ 32 } := by decide
theorem test_params_pixCap : ¬ Params.wf { Params.ofVectors with pixCap := 3 } := by decide
theorem test_params_pixCap_high : ¬ Params.wf { Params.ofVectors with pixCap := 2 ^ 32 } := by decide
theorem test_params_rowCap : ¬ Params.wf { Params.ofVectors with rowCap := 0 } := by decide

/-! ## Decoding: the words of 30_encoding R59, written out bit by bit -/

theorem test_decode_none : decodeTableWord 8 0b00000000 = some .none := by decide
theorem test_decode_sub : decodeTableWord 8 0b00000001 = some .sub := by decide
theorem test_decode_up : decodeTableWord 8 0b00000010 = some .up := by decide
theorem test_decode_avg : decodeTableWord 8 0b00000011 = some .avg := by decide
theorem test_decode_paeth : decodeTableWord 8 0b00000100 = some .paeth := by decide
/-- 30_encoding R60: every value from 0x05 up is refused, whatever its low bits. -/
theorem test_decode_reserved : decodeTableWord 8 0b00000101 = none ∧ decodeTableWord 8 0b00001000 = none ∧
    decodeTableWord 8 0b10000000 = none ∧ decodeTableWord 8 0b11111111 = none := by decide
/-- Data bytes follow the filter type (30_encoding R56), in increasing address order. -/
theorem test_decode_data : decodeScanline 2 [0x04, 0xaa, 0xbb, 0xcc] =
    .row { instr := .paeth, data := [0xaa, 0xbb] } [0xcc] := by decide
theorem test_decode_short : decodeScanline 3 [0x04, 0xaa, 0xbb] = .short := by decide

/-! ## One RECON step, with 95_test_vectors 2.5 and the examples of 41_defilter R87 to R92 -/

def regs (ph : Phase) (w h : Word) (d ct : Byte) (n : Word) : Regs :=
  { Regs.reset with phase := ph, width := w, height := h, bitDepth := d, colorType := ct, inLen := n }

/-- A job at a stage, with nothing in its stores. -/
def job (ph : Phase) (st : Stage) (w h : Word) (d ct : Byte) (n : Word) : State :=
  { State.reset with reg := regs ph w h d ct n, seq := { Sequencer.reset with stage := st } }

/-- A one-row job at RECON of byte i, with CUR and PREV filled. -/
def onRow (w : Word) (d ct : Byte) (i : Nat) (cur prev : List Byte) : State :=
  let s := writeBytes .prev 0 prev (writeBytes .cur 0 cur (job .defilter .recon w 1 d ct 0))
  { s with seq := { s.seq with i := i } }

/-- The byte of CUR that a step of the filter type leaves. -/
def after (ft : Instr) (s : State) : Option Byte := (nextState (exec ft s)).map (readByte .cur s.seq.i)

theorem test_none : after .none (onRow 2 8 0 1 [0x09, 0x08] [0x01, 0x02]) = some 0x08 := by decide
theorem test_none_all_ones : after .none (onRow 2 8 0 1 [0xff, 0xff] [0xff, 0xff]) = some 0xff := by decide
theorem test_sub : after .sub (onRow 2 8 2 3 [0x0a, 0x14, 0x1e, 0x05, 0x05, 0x05] [0x64, 0xc8, 0xfa, 1, 2, 3]) =
    some 0x0f := by decide
theorem test_sub_wraps_two_apart : after .sub (onRow 2 8 4 2 [0xff, 0x80, 0x01, 0x02] [9, 9, 9, 9]) = some 0x00 := by
  decide
theorem test_up_wraps : after .up (onRow 3 8 0 1 [0x0a, 0x64, 0x0a] [0x64, 0xc8, 0xfa]) = some 0x2c := by decide
theorem test_up_row_zero : after .up (onRow 3 8 0 1 [0x55, 0x12, 0x0a] [0, 0, 0]) = some 0x12 := by decide
theorem test_avg : after .avg (onRow 2 8 0 1 [0x65, 0x03] [0xc8, 0x64]) = some 0x67 := by decide
/-- 95_test_vectors 2.4: a = 200 and b = 100 give 150 with the width 9 and 22 with 8. -/
theorem test_avg_widths : after .avg (onRow 2 8 0 1 [200, 0] [0, 100]) = some 150 ∧
    after .avg { onRow 2 8 0 1 [200, 0] [0, 100] with params := { Params.ofVectors with avgSumWidth := .w8 } } =
      some 22 := by decide
theorem test_paeth : after .paeth (onRow 2 8 4 2 [0x0b, 0x16, 0x03, 0x04] [0x0a, 0x14, 0x1e, 0x28]) = some 0x21 := by
  decide
/-- 95_test_vectors 2.2: a = 0a, b = 14, c = 0f picks c; a = 0c, b = 06, c = 0a (a tie of b and c) picks b. -/
theorem test_paeth_picks : after .paeth (onRow 2 8 0 1 [0x0a, 0x00] [0x0f, 0x14]) = some 0x0f ∧
    after .paeth (onRow 2 8 0 1 [0x0c, 0x00] [0x0a, 0x06]) = some 0x06 := by decide

/-! ## A placed instruction is the one the next step runs -/

theorem test_step_none : step (State.reset.withFetchWord 8 0) = exec .none (State.reset.withFetchWord 8 0) := rfl
theorem test_step_sub : step (State.reset.withFetchWord 8 1) = exec .sub (State.reset.withFetchWord 8 1) := rfl
theorem test_step_up : step (State.reset.withFetchWord 8 2) = exec .up (State.reset.withFetchWord 8 2) := rfl
theorem test_step_avg : step (State.reset.withFetchWord 8 3) = exec .avg (State.reset.withFetchWord 8 3) := rfl
theorem test_step_paeth : step (State.reset.withFetchWord 8 4) = exec .paeth (State.reset.withFetchWord 8 4) := rfl
theorem test_step_placed_runs : ∀ w ∈ [0, 1, 2, 3, 4],
    (nextState (step (State.reset.withFetchWord 8 w))).map (fun t => t.seq.i) = some 1 := by decide
theorem test_step_reserved : (nextState (step (State.reset.withFetchWord 8 5))).map
    (fun t => (t.reg.phase, t.reg.errCode, t.reg.errRow, t.reg.errValue)) = some (.error, .badFilter, 0, 5) := by decide

/-! ## The other units -/

/-- 95_test_vectors 2.1, one row of each depth class: BITS, BPP, L, RAWN. -/
theorem test_geometry :
    let row (w h : Word) (d ct : Byte) :=
      (geometry (regs .idle w h d ct 0)).map fun g => (g.bits, bytesPerPixel g, scanLength g, rawLength g)
    row 2 2 8 2 = some (24, 3, 6, 12) ∧ row 10 2 1 0 = some (1, 1, 2, 4) ∧ row 3 1 4 2 = some (12, 2, 5, 5) ∧
      row 1 1 16 6 = some (64, 8, 8, 8) ∧ row 1 1 8 5 = none := by decide

/-- 95_test_vectors 2.3. -/
theorem test_paeth_function : paeth 10 20 15 = 15 ∧ paeth 2 1 0 = 2 ∧ paeth 1 2 0 = 2 ∧ paeth 3 250 128 = 128 ∧
    paeth 0 0 255 = 0 ∧ paeth 2 14 10 = 2 ∧ paeth 250 5 255 = 5 := by decide

/-- 95_test_vectors 2.5, a whole row through the row function. -/
theorem test_row : reconRow .w9 .paeth 4 [1, 2, 3, 4, 5, 6, 7, 8] [0xff, 0x80, 0x01, 0x00, 0x01, 0x80, 0xff, 0x00] =
    [0x00, 0x82, 0x04, 0x04, 0x06, 0x02, 0x06, 0x08] := by decide

/-- 95_test_vectors E4: the forward filter, both widths. -/
theorem test_forward :
    forwardRow .w9 .avg 3 [0x10, 0x20, 0x30, 0xf0, 0xe0, 0xd0] [0x15, 0x1e, 0x2f, 0xff, 0x01, 0x80] =
      [0x0d, 0x0e, 0x17, 0x7d, 0x82, 0x01] ∧
    forwardRow .w8 .avg 3 [0x10, 0x20, 0x30, 0xf0, 0xe0, 0xd0] [0x15, 0x1e, 0x2f, 0xff, 0x01, 0x80] =
      [0x0d, 0x0e, 0x17, 0xfd, 0x82, 0x01] := by decide

/-- 95_test_vectors P9: STATUS reads 0x204 after an unknown colour type. -/
theorem test_status_word : statusWord { Regs.reset with phase := .error, errCode := .unknownColorType } = 0x00000204 := by
  decide
/-- 95_test_vectors P1, P4, P5, P6 and 2.1: the STATUS words of DONE and of the other errors. -/
theorem test_status_words : statusWord { Regs.reset with phase := .done } = 0x00000003 ∧
    statusWord { Regs.reset with phase := .error, errCode := .badFilter } = 0x00000104 ∧
    statusWord { Regs.reset with phase := .error, errCode := .rangeDefilter } = 0x00000304 ∧
    statusWord { Regs.reset with phase := .error, errCode := .rangeAssemble } = 0x00000404 ∧
    statusWord { Regs.reset with phase := .error, errCode := .config } = 0x00000504 := by decide

/-- 95_test_vectors P4, as text: the bytes of IN, a reserved filter type among them, and the pad last (30_encoding R69). -/
theorem test_listing :
    (readListing ".image W=1 H=2 D=8 CT=2\nup 01 02 03\n.pad aa\nFT 05 04 05 0F ; reserved".toList).map
      (fun l => (l.image, assembleListing l)) =
    some ({ width := 1, height := 2, bitDepth := 8, colorType := 2 }, [2, 1, 2, 3, 5, 4, 5, 15, 0xaa]) := by decide

/-- A pixel of the defaults and one past the stream (95_test_vectors 2.6). -/
theorem test_pixel : (nextState (pixelStep (writeBytes .raw 0 [0x11, 0x22, 0x33, 0x44]
    (job .assemble .pixel 1 1 8 6 0)))).map (fun t => (readBytes .pix 0 4 t, t.reg.phase)) =
      some ([0x11, 0x22, 0x33, 0xff], .done) := by decide

/-! ## Witnesses: for each statement with hypotheses, a state and operands that meet them -/

/-- A job of one truecolor pixel at a stage: BPP = 3, S = 4, L = 3, RAWN = 3, N = 1; its scanline is in IN. -/
def small (ph : Phase) (st : Stage) : State :=
  writeBytes .inp 0 [0x01, 0x0a, 0x14, 0x1e] (job ph st 1 1 8 2 4)

def g1 : Geometry := { width := 1, height := 1, bits := 24 }

/-- A state in which an access from outside comes next. -/
def host (a : HostAccess) (s : State) : State := { s with agenda := [.host a] }

theorem witness_AssertedResetAbandonsTheJob :
    (host .reset (small .defilter .recon)).agenda = .host .reset :: [] ∧ busy (small .defilter .recon).reg = true := by decide

theorem witness_RegisterReadsFollowTheMap :
    ∀ off ∈ [0x00, 0x04, 0x08, 0x0C, 0x10, 0x14, 0x18, 0x1C, 0x20, 0x24, 0x3C],
      (host (.readReg off 4) (small .done .halt)).agenda = .host (.readReg off 4) :: [] ∧ off % 4 = 0 ∧ off ≤ 0x3C := by
  decide

theorem witness_IdleConfigurationWriteReadsBack : ∀ off ∈ [0x08, 0x0C, 0x10, 0x14, 0x18],
    (host (.writeReg off 4 0xFFFFFFFF) (small .done .halt)).agenda = .host (.writeReg off 4 0xFFFFFFFF) :: [] ∧
      busy (host (.writeReg off 4 0xFFFFFFFF) (small .done .halt)).reg = false := by decide

theorem witness_BusyRegisterWritesHaveNoEffect : ∀ off ∈ [0x00, 0x08, 0x3C],
    (host (.writeReg off 4 1) (small .defilter .recon)).agenda = .host (.writeReg off 4 1) :: [] ∧
      busy (host (.writeReg off 4 1) (small .defilter .recon)).reg = true ∧ off % 4 = 0 ∧ off ≤ 0x3C := by decide

theorem witness_ReadOnlyAndReservedWritesHaveNoEffect : 
    ∀ p ∈ [(0x04, 1), (0x1C, 1), (0x20, 1), (0x24, 1), (0x3C, 1), (0x00, 2)],
    (host (.writeReg p.1 4 p.2) (small .done .halt)).agenda = .host (.writeReg p.1 4 p.2) :: [] ∧ p.1 % 4 = 0 ∧
      p.1 ≤ 0x3C ∧ (p.1 = 0x04 ∨ p.1 = 0x1C ∨ 0x20 ≤ p.1 ∨ (p.1 = 0x00 ∧ (p.2 : Word).getLsbD 0 = false)) := by decide

theorem witness_StartClearsErrorsAndBeginsCheck :
    (host (.writeReg 0 4 1) (small .defilter .check)).agenda = .host (.writeReg 0 4 1) :: [] ∧
      (1 : Word).getLsbD 0 = true ∧ busy (small .defilter .check).reg = true ∧
      ∀ ph ∈ [Phase.idle, .done, .error], busy (host (.writeReg 0 4 1) (small ph .halt)).reg = false := by decide

theorem witness_UnadmittedHostAccessIsRefused :
    let s := small .done .halt
    ((host (.readReg 0x40 4) s).agenda = .host (.readReg 0x40 4) :: [] ∧ ¬ (4 = 4 ∧ 0x40 % 4 = 0 ∧ 0x40 ≤ 0x3C)) ∧
    ((host (.writeReg 0x39 4 0) s).agenda = .host (.writeReg 0x39 4 0) :: [] ∧
      ¬ (4 = 4 ∧ 0x39 % 4 = 0 ∧ 0x39 ≤ 0x3C)) ∧
    ((host (.readMem .pix 256 1) s).agenda = .host (.readMem .pix 256 1) :: [] ∧
      ¬ (1 = 1 ∧ 256 < s.params.capacity (hostSpace .pix))) ∧
    ((host (.writeMem .inp 0 2 7) s).agenda = .host (.writeMem .inp 0 2 7) :: [] ∧
      ¬ (2 = 1 ∧ 0 < s.params.capacity (hostSpace .inp))) := by decide

theorem witness_BusyHostMemoryAccess : ∀ m ∈ [HostMem.inp, .raw, .pix], ∀ addr ∈ [0, 255],
    busy (small .defilter .recon).reg = true ∧ addr < (small .defilter .recon).params.capacity (hostSpace m) ∧
      (host (.readMem m addr 1) (small .defilter .recon)).agenda = .host (.readMem m addr 1) :: [] ∧
      (host (.writeMem m addr 1 7) (small .defilter .recon)).agenda = .host (.writeMem m addr 1 7) :: [] := by decide

theorem witness_IdleHostMemoryAccess : ∀ m ∈ [HostMem.inp, .raw, .pix], ∀ addr ∈ [0, 255],
    busy (small .done .halt).reg = false ∧ addr < (small .done .halt).params.capacity (hostSpace m) ∧
      (host (.readMem m addr 1) (small .done .halt)).agenda = .host (.readMem m addr 1) :: [] ∧
      (host (.writeMem m addr 1 7) (small .done .halt)).agenda = .host (.writeMem m addr 1 7) :: [] := by decide

theorem witness_HostTransferStoresItsBytes :
    ({ small .done .halt with agenda := transferIn 254 [7, 8] ++ [.engine] } : State).agenda =
      transferIn 254 [7, 8] ++ [.engine] ∧
    busy (small .done .halt).reg = false ∧ 254 + [7, 8].length ≤ (small .done .halt).params.inCap := by decide

/-- A halted job with one pixel of results. -/
def finished (ph : Phase) : State :=
  writeBytes .pix 0 [1, 2, 3, 255] (writeBytes .raw 0 [1, 2, 3] (small ph .halt))

theorem witness_ResultsStayUntilStartOrReset :
    ((finished .done).reg.phase = .done ∧ (finished .error).reg.phase = .error) ∧ (finished .done).seq.stage = .halt ∧
    (∀ w, (host (.readMem .raw 0 1) (finished .done)).agenda.head? = some (.host (.writeReg 0x00 4 w)) → w.getLsbD 0 = false) ∧
    (∀ w, (host (.writeReg 0 4 2) (finished .error)).agenda.head? = some (.host (.writeReg 0x00 4 w)) → w.getLsbD 0 = false) ∧
    (∀ a ∈ [HostAccess.readMem .raw 0 1, .readMem .pix 3 1, .writeMem .inp 0 1 7, .writeReg 0 4 2],
      (host a (finished .done)).agenda.head? ≠ some (.host .reset) ∧ (nextState (step (host a (finished .done)))).isSome) := by
  refine ⟨by decide, by decide, ?_, ?_, by decide⟩
  · intro w h; cases h
  · intro w h; cases h; decide

theorem witness_ScanlineStreamRoundTrip :
    ∀ sc ∈ [({ instr := .avg, data := [0, 255] } : Scanline), { instr := .none, data := [5, 4] }], sc.wf 2 = true := by decide

theorem witness_DecodedScanlineHasOneEncoding :
    decodeScanline 2 [3, 9, 8, 7] = .row { instr := .avg, data := [9, 8] } [7] := by decide

theorem witness_ListingAssemblesToItsScanlines :
    ∀ sc ∈ [({ instr := .paeth, data := [1, 2, 3] } : Scanline), { instr := .up, data := [5, 4, 3] }], sc.wf 3 = true := by
  decide

theorem witness_GeometryRanges : geometry (small .done .halt).reg = some g1 ∧
    legalDepth (small .done .halt).reg.bitDepth = true ∧ 1 ≤ g1.width ∧ 1 ≤ g1.height := by decide

/-- The boundary of R78: BITS = 6 is pixel-aligned at W = 3 and not at W = 4 (90_conflicts C6). -/
theorem witness_RowsArePixelAlignedExactlyWhen : ∀ w ∈ [3, 4],
    (geometry (regs .done (BitVec.ofNat 32 w) 1 2 2 0)).map (fun g => (g.width, g.bits)) = some (w, 6) ∧
      legalDepth (regs .done (BitVec.ofNat 32 w) 1 2 2 0).bitDepth = true := by decide

theorem witness_AssemblerAcceptsExactlyWhen : geometry (regs .done 3 2 8 0 0) = some { width := 3, height := 2, bits := 8 } ∧
    assemblerFits .anyByte { width := 3, height := 2, bits := 8 } = true ∧
    assemblerFits .rangeError { width := 3, height := 2, bits := 8 } = false ∧
    geometry (small .done .halt).reg = some g1 ∧ assemblerFits .rangeError g1 = true := by decide

/-- 95_test_vectors 2.1, the rejected configurations: each check's boundary, in the order of 60_exceptions R111. -/
theorem witness_StartChecksFailInOrder : ∀ p ∈ [
      ((0, 1, 8, 5, 4), (ErrCode.config, (0 : Byte))), ((1, 0, 8, 2, 4), (.config, 0)), ((1, 1, 3, 5, 4), (.config, 0)),
      ((1, 1, 8, 5, 257), (.config, 0)), ((86, 1, 8, 9, 4), (.unknownColorType, 9)), ((1, 1, 8, 1, 256), (.unknownColorType, 1)),
      ((86, 1, 8, 2, 4), (.config, 0)), ((1, 86, 8, 2, 4), (.config, 0)), ((65, 1, 8, 0, 4), (.config, 0))],
    let s := job .defilter .check p.1.1 p.1.2.1 p.1.2.2.1 p.1.2.2.2.1 p.1.2.2.2.2
    engineTurn s = true ∧ s.seq.stage = .check ∧
      (nextState (step s)).map (fun t => (t.reg.phase, t.reg.errCode, t.reg.errRow, t.reg.errValue)) =
        some (.error, p.2.1, 0, p.2.2) := by decide

/-- Every bound just reached at once: IN_LEN, L, RAWN and 4·N are all 256 (60_exceptions R111). -/
def atEveryBound : State := job .defilter .check 64 1 8 6 256

theorem witness_CheckZeroesThePreviousRow :
    let s := atEveryBound
    let g : Geometry := { width := 64, height := 1, bits := 32 }
    engineTurn s = true ∧ s.seq.stage = .check ∧ s.reg.width ≠ 0 ∧ s.reg.height ≠ 0 ∧
      s.reg.bitDepth ∈ ([1, 2, 4, 8, 16] : List Byte) ∧ s.reg.inLen.toNat = s.params.inCap ∧
      s.reg.colorType ∈ ([0, 2, 3, 4, 6] : List Byte) ∧ geometry s.reg = some g ∧ scanLength g = s.params.rowCap ∧
      rawLength g = s.params.rawCap ∧ 4 * pixelCount g = s.params.pixCap := by decide

theorem test_check_at_every_bound : startChecks atEveryBound = .ok { width := 64, height := 1, bits := 32 } := rfl

theorem witness_RaiseSetsTheErrorFieldsOnly : (2 ^ 32 - 1 : Nat) < 2 ^ 32 := by decide

theorem witness_ShortRowRaisesRangeDefilter :
    let s := job .defilter .rowFetch 1 1 8 2 3
    engineTurn s = true ∧ s.seq.stage = .rowFetch ∧ geometry s.reg = some g1 ∧
      s.reg.inLen.toNat < s.seq.y * rowStride g1 + rowStride g1 := by decide

/-- The last legal filter type and the first reserved one. -/
theorem witness_RowFetchChecksAndLoads : ∀ ft ∈ [(4 : Byte), 5],
    let s := writeByte .inp 0 ft (small .defilter .rowFetch)
    engineTurn s = true ∧ s.seq.stage = .rowFetch ∧ geometry s.reg = some g1 ∧
      s.seq.y * rowStride g1 + rowStride g1 ≤ s.reg.inLen.toNat ∧ s.reg.inLen.toNat ≤ s.params.inCap ∧
      scanLength g1 ≤ s.params.rowCap ∧ readByte .inp (s.seq.y * rowStride g1) s = ft := by decide

theorem witness_StepRunsTheDecodedInstruction :
    (let s := small .defilter .recon
     engineTurn s = true ∧ s.seq.stage = .recon ∧ decodeFilter s.seq.ft = .instr .none) ∧
    (let s := small .defilter .rowFetch
     engineTurn s = true ∧ s.seq.stage = .rowFetch ∧ geometry s.reg = some g1 ∧
      s.seq.y * rowStride g1 + rowStride g1 ≤ s.reg.inLen.toNat ∧ s.reg.inLen.toNat ≤ s.params.inCap ∧
      scanLength g1 ≤ s.params.rowCap ∧ decodeFilter (readByte .inp (s.seq.y * rowStride g1) s) = .instr .sub) := by decide

/-- Of the statements about one filter type: the first byte of a row and the byte one pixel on. -/
theorem witness_EachFilterAddsItsPredictor : ∀ i ∈ [0, 3],
    let s := onRow 2 8 2 i [0x0a, 0x14, 0x1e, 5, 5, 5] [0x64, 0xc8, 0xfa, 1, 2, 3]
    geometry s.reg = some { width := 2, height := 1, bits := 24 } ∧ s.seq.i < s.params.rowCap ∧
      (s.seq.i = 0 → s.seq.i < bytesPerPixel { width := 2, height := 1, bits := 24 }) := by decide
/-- A colour type without a geometry, and the first byte past a row buffer. -/
theorem witness_ReconstructionStopsOffTheMachine : geometry (job .idle .recon 1 1 8 5 0).reg = none ∧
    geometry (onRow 1 8 2 256 [] []).reg = some g1 ∧
    (onRow 1 8 2 256 [] []).params.rowCap ≤ (onRow 1 8 2 256 [] []).seq.i := by decide
theorem witness_NoneKeepsTheByte : geometry (small .defilter .recon).reg = some g1 ∧
    (small .defilter .recon).seq.i < (small .defilter .recon).params.rowCap := by decide
theorem witness_SubAddsTheLeftByte : geometry (onRow 2 8 2 3 [] []).reg = some { width := 2, height := 1, bits := 24 } ∧
    (onRow 2 8 2 3 [] []).seq.i < (onRow 2 8 2 3 [] []).params.rowCap := by decide
theorem witness_UpAddsTheAboveByte : geometry (onRow 2 8 2 3 [] []).reg = some { width := 2, height := 1, bits := 24 } ∧
    (onRow 2 8 2 3 [] []).seq.i < (onRow 2 8 2 3 [] []).params.rowCap := by decide
/-- Each clause: the width 9, and a byte of the first pixel. -/
theorem witness_AvgAddsTheHalvedSum : geometry (onRow 2 8 2 2 [] []).reg = some { width := 2, height := 1, bits := 24 } ∧
    (onRow 2 8 2 2 [] []).seq.i < (onRow 2 8 2 2 [] []).params.rowCap ∧
    (onRow 2 8 2 2 [] []).params.avgSumWidth = .w9 ∧
    (onRow 2 8 2 2 [] []).seq.i < bytesPerPixel { width := 2, height := 1, bits := 24 } := by decide
/-- Each clause: operands that pick a, b and c (95_test_vectors 2.2). -/
theorem witness_PaethAddsThePredictor : ∀ p ∈ [(2, 1, 0), (1, 2, 0), (10, 20, 15)],
    let a : Byte := BitVec.ofNat 8 p.1
    let b : Byte := BitVec.ofNat 8 p.2.1
    let c : Byte := BitVec.ofNat 8 p.2.2
    let s := onRow 2 8 0 1 [a, 0] [c, b]
    geometry s.reg = some { width := 2, height := 1, bits := 8 } ∧ s.seq.i < s.params.rowCap ∧
      rowOperands 1 1 s = { x := 0, a := a, b := b, c := c } := by decide
theorem witness_ReconstructionFrame : ∀ ft ∈ [Instr.none, .sub, .up, .avg, .paeth], ∀ i ∈ [0, 2],
    let s := onRow 1 8 2 i [1, 2, 3] [4, 5, 6]
    geometry s.reg = some g1 ∧ (nextState (exec ft s)).isSome := by decide
theorem witness_RowZeroCollapses :
    let s := onRow 2 8 2 3 [1, 2, 3, 4, 5, 6] [0, 0, 0, 0, 0, 0]
    geometry s.reg = some { width := 2, height := 1, bits := 24 } ∧ s.seq.i < s.params.rowCap ∧
      ∀ i, i ≤ s.seq.i → readByte .prev i s = 0 := by decide
theorem witness_FirstPixelCollapses :
    let s := onRow 2 8 2 2 [1, 2, 3, 4, 5, 6] [9, 9, 9, 9, 9, 9]
    geometry s.reg = some { width := 2, height := 1, bits := 24 } ∧ s.seq.i < s.params.rowCap ∧
      s.seq.i < bytesPerPixel { width := 2, height := 1, bits := 24 } := by decide

/-- Lane 1 of two lanes: the other lane differs in the row and in the row above. -/
theorem witness_LanesAreIndependent :
    let cur : List Byte := [1, 2, 3, 4]
    let cur' : List Byte := [7, 2, 8, 4]
    let prev : List Byte := [5, 6, 7, 8]
    let prev' : List Byte := [0, 6, 0, 8]
    1 ≤ 2 ∧ cur.length = cur'.length ∧
      ∀ i, i < cur.length → i % 2 = 1 → cur.getD i 0 = cur'.getD i 0 ∧ prev.getD i 0 = prev'.getD i 0 := by decide
theorem witness_ReconstructionInvertsTheForwardFilter : 1 ≤ bytesPerPixel g1 := by decide
theorem witness_AverageWidthsDifferOnWideSums :
    (255 : Byte).toNat + (0 : Byte).toNat < 256 ∧ 256 ≤ (255 : Byte).toNat + (1 : Byte).toNat := by decide

/-- The last row of an image and one before it. -/
theorem witness_CommitCopiesTheRow : ∀ h ∈ [1, 2],
    let s := job .defilter .commit 1 (BitVec.ofNat 32 h) 8 2 8
    let g : Geometry := { width := 1, height := h, bits := 24 }
    engineTurn s = true ∧ s.seq.stage = .commit ∧ geometry s.reg = some g ∧ scanLength g ≤ s.params.rowCap ∧
      s.seq.y * scanLength g + scanLength g ≤ s.params.rawCap := by decide

/-- The first test fails (BITS = 1, W = 10), the second fails (BPP = 1), and neither does. -/
theorem witness_AssemblerRangeCheck :
    ∀ p ∈ [((10, 2, 1, 0), (ErrCode.rangeAssemble, Stage.halt)), ((3, 2, 8, 0), (.rangeAssemble, .halt)),
        ((1, 1, 8, 2), (.none, .pixel))],
      let s := job .assemble .asmCheck p.1.1 p.1.2.1 p.1.2.2.1 p.1.2.2.2 0
      engineTurn s = true ∧ s.seq.stage = .asmCheck ∧ (geometry s.reg).isSome ∧
        (nextState (step s)).map (fun t => (t.reg.errCode, t.seq.stage)) = some p.2 := by decide

/-- The last pixel of an image, the last of a row and one before it. -/
theorem witness_PixelCopiesThreeSamples : ∀ p ∈ [(1, 1), (1, 2), (2, 1)],
    let s := job .assemble .pixel (BitVec.ofNat 32 p.1) (BitVec.ofNat 32 p.2) 8 2 0
    let g : Geometry := { width := p.1, height := p.2, bits := 24 }
    engineTurn s = true ∧ s.seq.stage = .pixel ∧ geometry s.reg = some g ∧
      bytesPerPixel g * (g.width * s.seq.y + s.seq.x) + 3 ≤ rawLength g ∧
      bytesPerPixel g * (g.width * s.seq.y + s.seq.x) + 3 ≤ s.params.rawCap ∧
      4 * (s.seq.y * g.width + s.seq.x) + 4 ≤ s.params.pixCap := by decide

/-- A grayscale row of three pixels at x = 1, 2 and 3: one, two and three samples past the stream. -/
theorem witness_SamplesPastTheStreamAreDraws : ∀ x ∈ [1, 2, 3],
    let s := job .assemble .pixel 3 1 8 0 0
    let s := { s with seq := { s.seq with x := x }, params := { s.params with asmOobPolicy := .anyByte } }
    let g : Geometry := { width := 3, height := 1, bits := 8 }
    engineTurn s = true ∧ s.seq.stage = .pixel ∧ geometry s.reg = some g ∧ rawLength g ≤ s.params.rawCap ∧
      4 * (s.seq.y * g.width + s.seq.x) + 4 ≤ s.params.pixCap ∧
      rawLength g < bytesPerPixel g * (g.width * s.seq.y + s.seq.x) + 3 := by decide

/-- A state that meets the invariant: one truecolor pixel about to be assembled. -/
def atPixel : State := writeBytes .raw 0 [1, 2, 3] (small .assemble .pixel)

theorem atPixel_inv : Inv atPixel :=
  ⟨by decide, fun sp => by cases sp <;> decide, by decide, by decide, by decide⟩

theorem witness_NoDrawsUnderRangeError :
    (let g : Geometry := { width := 1, height := 1, bits := 8 }
     0 < g.width ∧ 0 < g.height ∧ 1 < 3 ∧ bytesPerPixel g * pixelCount g ≤ rawLength g ∧
      rawLength g ≤ bytesPerPixel g * (g.width * 0 + 0) + 1) ∧
    Inv atPixel ∧ atPixel.seq.stage = .pixel ∧ atPixel.params.asmOobPolicy = .rangeError ∧
    (nextState (engineStep atPixel)).isSome = true := ⟨by decide, atPixel_inv, by decide⟩

theorem witness_EngineKeepsInputAndConfiguration :
    ∀ st ∈ [Stage.halt, .check, .rowFetch, .recon, .commit, .asmCheck, .pixel],
      (nextState (engineStep (small .defilter st))).isSome := by decide

/-- IN differs at address 4 and up only, where IN_LEN is 4. -/
theorem witness_EngineReadsInputBelowInLen :
    agreeBelow (small .defilter .rowFetch).reg.inLen.toNat (small .defilter .rowFetch)
      (writeBytes .inp 4 [7, 7] (small .defilter .rowFetch)) ∧
    (nextState (engineStep (small .defilter .rowFetch))).isSome = true := by
  refine ⟨⟨rfl, ?_⟩, ?_⟩ <;> decide

/-- One error of each stage that raises one. -/
theorem witness_ErrorsArePreciseAndListed :
    ∀ s ∈ [job .defilter .check 0 1 8 2 4, job .defilter .check 1 1 8 5 4, job .defilter .rowFetch 1 1 8 2 3,
        writeByte .inp 0 5 (small .defilter .rowFetch), job .assemble .asmCheck 3 2 8 0 0],
      s.reg.phase ≠ .error ∧ (nextState (engineStep s)).map (fun t => t.reg.phase) = some .error := by decide

theorem witness_InvariantHoldsAtReset : Params.wf { Params.ofVectors with avgSumWidth := .w8, rowCap := 1 } := by decide

theorem witness_EveryStepKeepsTheInvariant : Inv atPixel ∧ (nextState (step atPixel)).isSome = true :=
  ⟨atPixel_inv, by decide⟩

theorem witness_EngineNeverStops : Inv atPixel ∧ engineTurn atPixel = true := ⟨atPixel_inv, by decide⟩

theorem witness_PixelStepsNeverFail : Inv atPixel ∧ engineTurn atPixel = true ∧ atPixel.seq.stage = .pixel :=
  ⟨atPixel_inv, by decide, by decide⟩

theorem witness_EngineComputesTheJobFunction : justStarted (small .defilter .check) = true := by decide

theorem witness_CompleteJobStepCount : justStarted (small .defilter .check) = true ∧
    startChecks (small .defilter .check) = .ok g1 ∧ (jobFunction (small .defilter .check)).phase = .done :=
  ⟨rfl, rfl, rfl⟩

theorem witness_CompletedJobWritesExactlyItsRanges : startChecks (small .done .halt) = .ok g1 ∧
    (jobFunction (small .done .halt)).phase = .done ∧
    (jobFunction (small .done .halt)).raw = [(0, 0x0a), (1, 0x14), (2, 0x1e)] ∧
    (jobFunction (small .done .halt)).pix = [(0, 0x0a), (1, 0x14), (2, 0x1e), (3, 0xff)] := ⟨rfl, rfl, by decide, by decide⟩

/-- A job of two rows of one truecolor pixel; the second row's filter type is the one given. -/
def twoRows (ft : Byte) (n : Word) : State :=
  writeBytes .inp 0 [0x02, 1, 2, 3, ft, 4, 5, 6] (job .done .halt 1 2 8 2 n)

/-- A start error, both row errors (at row 1, as in 95_test_vectors P4), and the assembler's. -/
theorem witness_FailedJobKeepsTheRest :
    (jobFunction (job .done .halt 0 1 8 2 4)).errCode = .config ∧
    (jobFunction (job .done .halt 1 1 8 5 4)).errCode = .unknownColorType ∧
    ((jobFunction (twoRows 5 8)).errCode = .badFilter ∧ (jobFunction (twoRows 5 8)).errRow = 1 ∧
      (jobFunction (twoRows 5 8)).raw = [(0, 1), (1, 2), (2, 3)] ∧ (jobFunction (twoRows 5 8)).pix = []) ∧
    ((jobFunction (twoRows 5 7)).errCode = .rangeDefilter ∧ (jobFunction (twoRows 5 7)).errRow = 1) ∧
    (jobFunction (writeBytes .inp 0 [0, 9] (job .done .halt 1 1 8 0 2))).errCode = .rangeAssemble ∧
    (∀ s ∈ [job .done .halt 0 1 8 2 4, twoRows 5 8, twoRows 5 7], (jobFunction s).phase = .error) := by decide

theorem witness_FirstErrorWins :
    (startChecks (twoRows 5 8) = .ok { width := 1, height := 2, bits := 24 } ∧
      (jobFunction (twoRows 5 8)).errCode = .badFilter) ∧
    (startChecks (twoRows 5 7) = .ok { width := 1, height := 2, bits := 24 } ∧
      (jobFunction (twoRows 5 7)).errCode = .rangeDefilter) := ⟨⟨rfl, rfl⟩, rfl, rfl⟩

theorem witness_TrailingInputHasNoEffect : geometry (small .done .halt).reg = some g1 ∧
    agreeBelow (g1.height * rowStride g1) (small .done .halt) (writeBytes .inp 4 [7, 7] (small .done .halt)) := by
  refine ⟨by decide, rfl, ?_⟩
  decide

theorem witness_CompletedImageIsThreeSamplesAndAlpha :
    startChecks (small .done .halt) = .ok g1 ∧ (small .done .halt).params.asmOobPolicy = .rangeError ∧
    (jobFunction (small .done .halt)).phase = .done ∧ 0 < g1.width ∧ 0 < g1.height :=
  ⟨rfl, rfl, rfl, by decide, by decide⟩

end Sys2Proof.Tests
end

section
/-! PROOF. The refinement (O54): the engine's steps and the job function agree (00_scope R7). A running job is compared with the job
function by what its state must hold: `InJob` says what no stage touches and what RAW, PIX and the draws are; `AtRow`,
`OnRow` and `AfterPixels` add where the engine stands. One lemma per stage leads from one of these to the next. -/

namespace Sys2Proof.Machine

/-! ## Row buffers -/

/-- A byte store holds a row from address 0 up. -/
def holdsRow (sp : Space) (row : List Byte) (s : State) : Prop :=
  ∀ k, k < row.length → readByte sp k s = row.getD k 0

theorem holdsRow_congr {sp : Space} {row : List Byte} {s t : State} (h : holdsRow sp row s)
    (hm : memOf sp t = memOf sp s) (he : t.epoch = s.epoch) : holdsRow sp row t :=
  fun k hk => (readByte_congr hm he).trans (h k hk)

theorem holdsRow_writeBytes (sp : Space) (row : List Byte) (s : State) : holdsRow sp row (writeBytes sp 0 row s) := by
  intro k hk
  simp [readByte_writeBytes, hk]

/-- Storing a byte in a buffer replaces it in the row the buffer holds. -/
theorem holdsRow_writeByte {sp : Space} {row : List Byte} {s : State} (h : holdsRow sp row s) (k : Nat) (b : Byte) :
    holdsRow sp (row.set k b) (writeByte sp k b s) := by
  intro j hj
  rw [List.length_set] at hj
  by_cases hjk : j = k
  · subst hjk
    simp [hj]
  · rw [readByte_writeByte_address hjk, h j hj]
    simp [List.getElem?_set_ne (Ne.symm hjk)]

theorem readBytes_eq_map (sp : Space) (a n : Nat) (s : State) :
    readBytes sp a n s = (List.range n).map fun i => readByte sp (a + i) s := by
  refine List.ext_getElem (by simp) fun k hk _ => ?_
  rw [readBytes_length] at hk
  simpa [hk] using readBytes_getD sp n a k s hk

theorem readBytes_of_holdsRow {sp : Space} {row : List Byte} {s : State} (h : holdsRow sp row s) :
    readBytes sp 0 row.length s = row := by
  refine List.ext_getElem (by simp) fun k _ hk => ?_
  simpa [readBytes_eq_map, hk] using h k hk

/-- The left neighbour is read from the buffer as from the row it holds. -/
theorem leftOf_of_holdsRow {sp : Space} {row : List Byte} {s : State} (h : holdsRow sp row s) (bpp : Nat) {k : Nat}
    (hk : k < row.length) : (if bpp ≤ k then readByte sp (k - bpp) s else 0) = leftOf bpp row k := by
  rw [leftOf, h (k - bpp) (by omega)]

/-- The byte a RECON step stores is the one the row function puts there (41_defilter R82, R86). -/
theorem reconValue_of_holdsRow {s : State} {g : Geometry} {prev row : List Byte} (hc : holdsRow .cur row s)
    (hp : holdsRow .prev prev s) (hi : s.seq.i < row.length) (hl : prev.length = row.length) (ft : Instr) :
    reconValue ft g s = wrap8 (byteInt (row.getD s.seq.i 0) +
      predictor s.params.avgSumWidth ft (leftOf (bytesPerPixel g) row s.seq.i) (prev.getD s.seq.i 0)
        (leftOf (bytesPerPixel g) prev s.seq.i)) := by
  have hi' : s.seq.i < prev.length := hl ▸ hi
  simp only [reconValue, rowOperands, leftOf_of_holdsRow hc _ hi, leftOf_of_holdsRow hp _ hi', hc _ hi, hp _ hi']

/-! ## A state of a running job -/

/-- t is a state of the job that s started: IN, the parameters and the registers but PHASE are as at the start, only the
engine moves, and RAW, PIX and the count of draws are the given ones. -/
structure InJob (s : State) (raw pix : Memory) (draws : Nat) (t : State) : Prop where
  agenda : t.agenda = []
  params : t.params = s.params
  inp : t.inp = s.inp
  epoch : t.epoch = s.epoch
  reg : t.reg = { s.reg with phase := t.reg.phase }
  raw : t.raw = raw
  pix : t.pix = pix
  draws : t.draws = draws

theorem justStarted_iff (s : State) : justStarted s = true ↔
    s.seq.stage = .check ∧ s.reg.phase = .defilter ∧ s.reg.errCode = .none ∧ s.reg.errRow = 0 ∧ s.reg.errValue = 0 ∧
      s.agenda = [] := by
  simp [justStarted, and_assoc]

theorem InJob.start {s : State} (h : s.agenda = []) : InJob s s.raw s.pix s.draws s :=
  ⟨h, rfl, rfl, rfl, rfl, rfl, rfl, rfl⟩

section
variable {s t : State} {raw pix : Memory} {draws : Nat} (h : InJob s raw pix draws t)
include h

theorem InJob.geometry : Machine.geometry t.reg = Machine.geometry s.reg := by rw [h.reg]; rfl

theorem InJob.inLen : t.reg.inLen = s.reg.inLen := by rw [h.reg]

theorem InJob.readInp (a : Nat) : readByte .inp a t = readByte .inp a s := readByte_congr h.inp h.epoch

theorem InJob.readRaw (a : Nat) : readByte .raw a t = readByte .raw a (setMem .raw raw s) := readByte_congr h.raw h.epoch

theorem InJob.withSeq (q : Sequencer) : InJob s raw pix draws { t with seq := q } := { h with }

theorem InJob.writeByte_cur (a : Nat) (b : Byte) : InJob s raw pix draws (writeByte .cur a b t) := { h with }

theorem InJob.writeBytes_cur (a : Nat) (bs : List Byte) : InJob s raw pix draws (writeBytes .cur a bs t) := { h with }

theorem InJob.writeBytes_prev (a : Nat) (bs : List Byte) : InJob s raw pix draws (writeBytes .prev a bs t) := { h with }

theorem InJob.writeBytes_raw (a : Nat) (bs : List Byte) :
    InJob s (Memory.writeList raw a bs) pix draws (writeBytes .raw a bs t) :=
  { h with raw := congrArg (Memory.writeList · a bs) h.raw }

theorem InJob.writeBytes_pix (a : Nat) (bs : List Byte) :
    InJob s raw (Memory.writeList pix a bs) draws (writeBytes .pix a bs t) :=
  { h with pix := congrArg (Memory.writeList · a bs) h.pix }

theorem InJob.withDraws (d : Nat) : InJob s raw pix d { t with draws := d } := { h with draws := rfl }

theorem InJob.advanceCommit (height : Nat) : InJob s raw pix draws (advanceCommit height t) := by
  rw [advanceCommit_eq]
  exact { h with reg := by rw [h.reg] }

theorem InJob.advancePixel (g : Geometry) : InJob s raw pix draws (advancePixel g t) := by
  rw [advancePixel_eq]
  exact { h with reg := by rw [h.reg] }

/-- An error raised in a job shows as the job's result (60_exceptions R113); its row fits ERR_ROW. -/
theorem InJob.showsResult_raiseError (e : ErrCode) {row : Nat} (hrow : row < 2 ^ 32) (v : Byte) :
    showsResult s (raiseError e row v t)
      { phase := .error, errCode := e, errRow := row, errValue := v, raw := raw, pix := pix, draws := draws } := by
  refine ⟨rfl, rfl, rfl, ?_, rfl, h.raw, h.pix, h.draws, h.inp, h.params, ?_⟩
  · simpa using hrow
  · simp only [raiseError]
    rw [h.reg]

/-- A job that ends in DONE, its error fields as START cleared them, shows the result of a complete job. -/
theorem InJob.showsResult_done (hs : justStarted s = true) (hst : t.seq.stage = .halt) (hph : t.reg.phase = .done) :
    showsResult s t
      { phase := .done, errCode := .none, errRow := 0, errValue := 0, raw := raw, pix := pix, draws := draws } := by
  obtain ⟨-, -, hcode, hrow, hvalue, -⟩ := (justStarted_iff s).1 hs
  have hr := h.reg
  refine ⟨hst, hph, ?_, ?_, ?_, h.raw, h.pix, h.draws, h.inp, h.params, ?_⟩
  · rw [hr]; exact hcode
  · rw [hr]; simp [hrow]
  · rw [hr]; exact hvalue
  · rw [hr]

end

/-! ## The defilter stage: the rows -/

/-- The next row to fetch is row y, or every row is done; PREV holds the row above. -/
structure AtRow (s : State) (g : Geometry) (raw : Memory) (y : Nat) (prev : List Byte) (t : State) : Prop
    extends InJob s raw s.pix s.draws t where
  seqY : t.seq.y = y
  stage : t.seq.stage = if y = g.height then .asmCheck else .rowFetch
  prev : holdsRow .prev prev t

/-- The first k bytes of row y are reconstructed: PREV holds the row above and CUR the row so far. -/
structure OnRow (s : State) (g : Geometry) (raw : Memory) (y : Nat) (ft : Instr) (prev row : List Byte) (k : Nat)
    (t : State) : Prop extends InJob s raw s.pix s.draws t where
  seqY : t.seq.y = y
  ft : decodeFilter t.seq.ft = .instr ft
  seqI : t.seq.i = k
  stage : t.seq.stage = if k = scanLength g then .commit else .recon
  prev : holdsRow .prev prev t
  cur : holdsRow .cur row t

/-- The filtered bytes of row y in IN, as 41_defilter R86 takes them. -/
def filteredRow (g : Geometry) (y : Nat) (s : State) : List Byte :=
  (List.range (scanLength g)).map fun i => readByte .inp (y * rowStride g + 1 + i) s

@[simp] theorem filteredRow_length (g : Geometry) (y : Nat) (s : State) :
    (filteredRow g y s).length = scanLength g := by
  simp [filteredRow]

@[simp] theorem reconRow_length (aw : AvgSumWidth) (ft : Instr) (bpp : Nat) (prev cur : List Byte) :
    (reconRow aw ft bpp prev cur).length = cur.length :=
  reconBytes_length ..

section
variable {s t : State} {g : Geometry} {raw : Memory} {y : Nat} {prev : List Byte} (hok : startChecks s = .ok g)
include hok

/-- CHECK leads to row 0, above which PREV holds zeros. -/
theorem check_reaches (hs : justStarted s = true) :
    ∃ u, reaches 1 s u ∧ AtRow s g s.raw 0 (List.replicate (scanLength g) 0) u := by
  obtain ⟨hst, -, -, -, -, hag⟩ := (justStarted_iff s).1 hs
  have hheight := (startChecks_dims hok).2.1
  rcases checkStep_cases s with ⟨e, he, -⟩ | ⟨g', hg', hstep⟩
  · rw [hok] at he; cases he
  · obtain rfl : g' = g := by rw [hok] at hg'; cases hg'; rfl
    refine ⟨_, reaches_one hag (by simp [hst]) ((engineStep_check hst).trans hstep), ?_⟩
    exact { ((InJob.start hag).writeBytes_prev _ _).withSeq _ with
      seqY := rfl
      stage := (if_neg (by omega)).symm
      prev := holdsRow_congr (holdsRow_writeBytes .prev _ s) rfl rfl }

/-- ROW_FETCH of a row that is wholly in the input and has a legal filter type loads it. -/
theorem rowFetch_reaches {ft : Instr} (h : AtRow s g raw y prev t) (hy : y < g.height)
    (hin : y * rowStride g + rowStride g ≤ s.reg.inLen.toNat)
    (hft : decodeFilter (readByte .inp (y * rowStride g) s) = .instr ft) :
    ∃ u, reaches 1 t u ∧ OnRow s g raw y ft prev (filteredRow g y s) 0 u := by
  obtain ⟨hg, -, -, -, hcap, hrow, -, -⟩ := startChecks_ok hok
  have hlen := (startChecks_row hok).2
  have hst : t.seq.stage = .rowFetch := h.stage.trans (if_neg (by omega))
  have hft' : decodeFilter (readByte .inp (t.seq.y * rowStride g) t) = .instr ft := by rw [h.seqY, h.readInp]; exact hft
  have hload : readBytes .inp (t.seq.y * rowStride g + 1) (scanLength g) t = filteredRow g y s := by
    simp only [readBytes_eq_map, filteredRow, h.seqY, h.readInp]
  have hstep := rowFetchStep_completes (h.geometry.trans hg) (by rw [h.seqY, h.inLen]; exact hin)
    (by rw [h.seqY, h.params]; omega) (by rw [h.params]; exact hrow) hft'
  refine ⟨_, reaches_one h.agenda (by simp [hst]) ((engineStep_rowFetch hst).trans hstep), ?_⟩
  rw [hload]
  exact { (h.toInJob.writeBytes_cur _ _).withSeq _ with
    seqY := h.seqY
    ft := hft'
    seqI := rfl
    stage := (if_neg (by omega)).symm
    prev := holdsRow_congr h.prev rfl rfl
    cur := holdsRow_congr (holdsRow_writeBytes .cur _ t) rfl rfl }

/-- A RECON step is one more pass of the row function's loop. -/
theorem recon_reaches {ft : Instr} {row : List Byte} {k : Nat}
    (h : OnRow s g raw y ft prev (reconBytes s.params.avgSumWidth ft (bytesPerPixel g) prev k row) k t)
    (hrow : row.length = scanLength g) (hprev : prev.length = scanLength g) (hk : k < scanLength g) :
    ∃ u, reaches 1 t u ∧
      OnRow s g raw y ft prev (reconBytes s.params.avgSumWidth ft (bytesPerPixel g) prev (k + 1) row) (k + 1) u := by
  obtain ⟨hg, -, -, -, -, hcap, -, -⟩ := startChecks_ok hok
  have hst : t.seq.stage = .recon := h.stage.trans (if_neg (by omega))
  have hstep := exec_completes (h.geometry.trans hg) (by rw [h.seqI, h.params]; omega) ft
  have hvalue := reconValue_of_holdsRow (g := g) h.cur h.prev (by simp only [h.seqI, reconBytes_length]; omega)
    (by simp only [reconBytes_length]; omega) ft
  rw [h.seqI, h.params] at hvalue
  refine ⟨_, reaches_one h.agenda (by simp [hst]) ((engineStep_recon hst h.ft).trans hstep), ?_⟩
  rw [h.seqI, hvalue]
  exact { (h.toInJob.writeByte_cur _ _).withSeq _ with
    seqY := h.seqY
    ft := h.ft
    seqI := congrArg (· + 1) h.seqI
    stage := by simp [advanceRecon, h.seqI, hst]
    prev := holdsRow_congr h.prev rfl rfl
    cur := holdsRow_congr (holdsRow_writeByte h.cur k _) rfl rfl }

/-- k RECON steps are the first k bytes of the row function's loop. -/
theorem reconBytes_reaches {ft : Instr} {row : List Byte} (h : OnRow s g raw y ft prev row 0 t)
    (hrow : row.length = scanLength g) (hprev : prev.length = scanLength g) (k : Nat) (hk : k ≤ scanLength g) :
    ∃ u, reaches k t u ∧
      OnRow s g raw y ft prev (reconBytes s.params.avgSumWidth ft (bytesPerPixel g) prev k row) k u := by
  induction k with
  | zero => exact ⟨t, reaches_zero t, h⟩
  | succ k ih =>
    obtain ⟨u, hu, hku⟩ := ih (by omega)
    obtain ⟨v, hv, hkv⟩ := recon_reaches hok hku hrow hprev (by omega)
    exact ⟨v, reaches_add hu hv, hkv⟩

/-- COMMIT writes the reconstructed row to RAW and makes it the row above the next. -/
theorem commit_reaches {ft : Instr} {row : List Byte} (h : OnRow s g raw y ft prev row (scanLength g) t)
    (hrow : row.length = scanLength g) (hy : y < g.height) :
    ∃ u, reaches 1 t u ∧ AtRow s g (Memory.writeList raw (y * scanLength g) row) (y + 1) row u := by
  obtain ⟨hg, -, -, -, -, hcap, hraw, -⟩ := startChecks_ok hok
  have hst : t.seq.stage = .commit := h.stage.trans (if_pos rfl)
  have hfits : y * scanLength g + scanLength g ≤ s.params.rawCap := by
    calc y * scanLength g + scanLength g = (y + 1) * scanLength g := (Nat.succ_mul ..).symm
      _ ≤ rawLength g := Nat.mul_le_mul_right _ hy
      _ ≤ s.params.rawCap := hraw
  have hstep := commitStep_completes (h.geometry.trans hg) (by rw [h.params]; exact hcap)
    (by rw [h.seqY, h.params]; exact hfits)
  refine ⟨_, reaches_one h.agenda (by simp [hst]) ((engineStep_commit hst).trans hstep), ?_⟩
  have hread : readBytes .cur 0 (scanLength g) t = row := hrow ▸ readBytes_of_holdsRow h.cur
  rw [hread, h.seqY]
  exact { ((h.toInJob.writeBytes_raw _ _).writeBytes_prev _ _).advanceCommit _ with
    seqY := by simp [advanceCommit_eq, h.seqY]
    stage := by simp [advanceCommit_eq, h.seqY]
    prev := holdsRow_congr (holdsRow_writeBytes .prev row _) (advanceCommit_memOf ..) (by simp [advanceCommit_eq]) }

/-- A whole row: fetched, reconstructed and committed in L + 2 steps (10_state R31). -/
theorem row_reaches {ft : Instr} (h : AtRow s g raw y prev t) (hy : y < g.height) (hprev : prev.length = scanLength g)
    (hin : y * rowStride g + rowStride g ≤ s.reg.inLen.toNat)
    (hft : decodeFilter (readByte .inp (y * rowStride g) s) = .instr ft) :
    ∃ u, reaches (scanLength g + 2) t u ∧
      AtRow s g (Memory.writeList raw (y * scanLength g)
          (reconRow s.params.avgSumWidth ft (bytesPerPixel g) prev (filteredRow g y s))) (y + 1)
        (reconRow s.params.avgSumWidth ft (bytesPerPixel g) prev (filteredRow g y s)) u := by
  obtain ⟨u, hu, hfetched⟩ := rowFetch_reaches hok h hy hin hft
  obtain ⟨v, hv, hrecon⟩ := reconBytes_reaches hok hfetched (by simp) hprev (scanLength g) le_rfl
  obtain ⟨w, hw, hcommitted⟩ := commit_reaches hok hrecon (by simp) hy
  refine ⟨w, ?_, ?_⟩
  · rw [show scanLength g + 2 = 1 + scanLength g + 1 by omega]
    exact reaches_add (reaches_add hu hv) hw
  · simpa only [reconRow, filteredRow_length] using hcommitted

/-- ROW_FETCH of a row that is not wholly in the input ends the job (41_defilter R80). -/
theorem shortRow_reaches (h : AtRow s g raw y prev t) (hy : y < g.height)
    (hin : s.reg.inLen.toNat < y * rowStride g + rowStride g) :
    reaches 1 t (raiseError .rangeDefilter y 0 t) := by
  have hst : t.seq.stage = .rowFetch := h.stage.trans (if_neg (by omega))
  have hstep := rowFetchStep_short (h.geometry.trans (startChecks_ok hok).1) (by rw [h.seqY, h.inLen]; exact hin)
  rw [h.seqY] at hstep
  exact reaches_one h.agenda (by simp [hst]) ((engineStep_rowFetch hst).trans hstep)

/-- ROW_FETCH of a row with a reserved filter type ends the job (41_defilter R81). -/
theorem badFilter_reaches {v : Byte} (h : AtRow s g raw y prev t) (hy : y < g.height)
    (hin : y * rowStride g + rowStride g ≤ s.reg.inLen.toNat)
    (hv : decodeFilter (readByte .inp (y * rowStride g) s) = .badFilter v) :
    reaches 1 t (raiseError .badFilter y v t) := by
  obtain ⟨hg, -, -, -, hcap, -, -, -⟩ := startChecks_ok hok
  have hst : t.seq.stage = .rowFetch := h.stage.trans (if_neg (by omega))
  have hstep := rowFetchStep_badFilter (h.geometry.trans hg) (by rw [h.seqY, h.inLen]; exact hin)
    (by rw [h.seqY, h.params]; omega) (by rw [h.seqY, h.readInp]; exact hv)
  rw [h.seqY] at hstep
  exact reaches_one h.agenda (by simp [hst]) ((engineStep_rowFetch hst).trans hstep)

end

/-- What the engine does from t, of the job of s, when the row loop with the given number of rows left returns d: it
stands before ASM_CHECK after L + 2 steps a row, or it halts and shows the error. -/
def defilterAgrees (s : State) (g : Geometry) (rows : Nat) (t : State) (d : DefilterResult) : Prop :=
  match d.error with
  | none => ∃ u, reaches (rows * (scanLength g + 2)) t u ∧ InJob s d.raw s.pix s.draws u ∧ u.seq.stage = .asmCheck
  | some (code, row, value) => ∃ n u, reaches n t u ∧ showsResult s u
      { phase := .error, errCode := code, errRow := row, errValue := value, raw := d.raw, pix := s.pix, draws := s.draws }

/-- A row in front of a loop that agrees. -/
theorem defilterAgrees_row {s t u : State} {g : Geometry} {rows : Nat} {d : DefilterResult}
    (h : reaches (scanLength g + 2) t u) (hd : defilterAgrees s g rows u d) : defilterAgrees s g (rows + 1) t d := by
  unfold defilterAgrees at hd ⊢
  split at hd
  · obtain ⟨v, hv, hjob⟩ := hd
    refine ⟨v, ?_, hjob⟩
    rw [Nat.succ_mul, Nat.add_comm]
    exact reaches_add h hv
  · obtain ⟨n, v, hv, hshows⟩ := hd
    exact ⟨_, v, reaches_add h hv, hshows⟩

/-- The engine's rows are the row loop of 41_defilter R86, by induction on the rows left. -/
theorem defilterRows_agrees {s : State} {g : Geometry} (hok : startChecks s = .ok g) (rows : Nat) :
    ∀ {y : Nat} {prev : List Byte} {raw : Memory} {t : State}, AtRow s g raw y prev t → y + rows = g.height →
      prev.length = scanLength g →
      defilterAgrees s g rows t (defilterRows s.params.avgSumWidth g (fun a => readByte .inp a s) s.reg.inLen.toNat
        rows y prev raw) := by
  have hheight := (startChecks_dims hok).2.2
  induction rows with
  | zero =>
    intro y prev raw t h hy _
    refine ⟨t, ?_, h.toInJob, h.stage.trans (if_pos (by omega))⟩
    rw [Nat.zero_mul]
    exact reaches_zero t
  | succ rows ih =>
    intro y prev raw t h hy hprev
    rw [defilterRows]
    split
    · next hshort =>
      exact ⟨1, _, shortRow_reaches hok h (by omega) hshort, h.showsResult_raiseError _ (by omega) _⟩
    · next hin =>
      split
      · next v hv =>
        exact ⟨1, _, badFilter_reaches hok h (by omega) (by omega) hv, h.showsResult_raiseError _ (by omega) _⟩
      · next ft hft =>
        obtain ⟨u, hu, hrow⟩ := row_reaches hok h (by omega) hprev (by omega) hft
        exact defilterAgrees_row hu (ih hrow (by omega) (by simp))

/-! ## The assembler stage: the pixels -/

/-- The three samples and the alpha of a pixel as the column loop of 42_assembler R104 takes them, and the draws after
them. -/
def pixelBytes (g : Geometry) (raw : Nat → Byte) (o draws : Nat) : List Byte × Nat :=
  let r := sample g raw o draws
  let gr := sample g raw (o + 1) r.2
  let b := sample g raw (o + 2) gr.2
  ([r.1, gr.1, b.1, 255], b.2)

/-- One pass of the column loop of 42_assembler R104: PIX and the draws after pixel (x, y). -/
def assemblePixel (g : Geometry) (raw : Nat → Byte) (y x : Nat) (acc : Memory × Nat) : Memory × Nat :=
  let p := pixelBytes g raw (bytesPerPixel g * (g.width * y + x)) acc.2
  (Memory.writeList acc.1 (4 * (y * g.width + x)) p.1, p.2)

theorem assembleColumns_succ (g : Geometry) (raw : Nat → Byte) (y cols x : Nat) (acc : Memory × Nat) :
    assembleColumns g raw y (cols + 1) x acc =
      assembleColumns g raw y cols (x + 1) (assemblePixel g raw y x acc) := rfl

theorem rawByte_eq_sample (g : Geometry) (k : Nat) {s : State} {raw : Nat → Byte} (h : ∀ a, readByte .raw a s = raw a) :
    rawByte g k s = ((sample g raw k s.draws).1, { s with draws := (sample g raw k s.draws).2 }) := by
  unfold rawByte sample
  split
  · rw [h]
  · rfl

/-- The engine's samples of a pixel are the job function's (42_assembler R102, R103). -/
theorem samples_eq_pixelBytes (g : Geometry) (o : Nat) {s : State} {raw : Nat → Byte}
    (h : ∀ a, readByte .raw a s = raw a) :
    samples g o s = ((pixelBytes g raw o s.draws).1, { s with draws := (pixelBytes g raw o s.draws).2 }) := by
  have hd : ∀ d a, readByte .raw a { s with draws := d } = raw a := fun _ a => (readByte_congr rfl rfl).trans (h a)
  simp only [samples, pixelBytes, rawByte_eq_sample g _ h, rawByte_eq_sample g _ (hd _)]

/-- The first x pixels of row y and all rows above are assembled: the engine stands at the next pixel, or has ended the
job. -/
structure AfterPixels (s : State) (g : Geometry) (raw : Memory) (y x : Nat) (acc : Memory × Nat) (t : State) : Prop
    extends InJob s raw acc.1 acc.2 t where
  seqX : t.seq.x = if x = g.width then 0 else x
  seqY : t.seq.y = if x = g.width then y + 1 else y
  running : t.seq.y ≠ g.height → t.seq.stage = .pixel
  ended : t.seq.y = g.height → t.seq.stage = .halt ∧ t.reg.phase = .done

section
variable {s t : State} {g : Geometry} {raw : Memory} {y : Nat} {acc : Memory × Nat} (hok : startChecks s = .ok g)
include hok

/-- After all pixels of a row come those of the next. -/
theorem AfterPixels.nextRow (h : AfterPixels s g raw y g.width acc t) : AfterPixels s g raw (y + 1) 0 acc t := by
  have hwidth := (startChecks_dims hok).1
  have h0 : ¬ 0 = g.width := by omega
  exact { h with seqX := by simpa [h0] using h.seqX, seqY := by simpa [h0] using h.seqY }

/-- PIXEL assembles the next pixel (42_assembler R102, R104). -/
theorem pixel_reaches {x : Nat} (h : AfterPixels s g raw y x acc t) (hx : x < g.width) (hy : y < g.height) :
    ∃ u, reaches 1 t u ∧ AfterPixels s g raw y (x + 1)
      (assemblePixel g (fun a => readByte .raw a (setMem .raw raw s)) y x acc) u := by
  obtain ⟨hg, -, -, -, -, -, hraw, hpix⟩ := startChecks_ok hok
  have htx : t.seq.x = x := h.seqX.trans (if_neg (by omega))
  have hty : t.seq.y = y := h.seqY.trans (if_neg (by omega))
  have hst : t.seq.stage = .pixel := h.running (by omega)
  have hfits : 4 * (y * g.width + x) + 4 ≤ s.params.pixCap := by
    have hrows : (y + 1) * g.width ≤ g.height * g.width := Nat.mul_le_mul_right _ hy
    rw [Nat.succ_mul] at hrows
    rw [pixelCount, Nat.mul_comm g.width] at hpix
    omega
  have hstep := pixelStep_completes (h.geometry.trans hg) (by rw [h.params]; omega)
    (by rw [htx, hty, h.params]; exact hfits)
  refine ⟨_, reaches_one h.agenda (by simp [hst]) ((engineStep_pixel hst).trans hstep), ?_⟩
  rw [htx, hty, samples_eq_pixelBytes g _ h.readRaw, h.draws]
  exact { ((h.toInJob.withDraws _).writeBytes_pix _ _).advancePixel g with
    seqX := by simp [advancePixel_eq, htx]
    seqY := by simp [advancePixel_eq, htx, hty]
    running := by
      simp only [advancePixel_eq]
      intro hne
      exact (if_neg hne).trans hst
    ended := by
      simp only [advancePixel_eq]
      intro heq
      exact ⟨if_pos heq, if_pos heq⟩ }

/-- The rest of a row's pixels are the column loop of 42_assembler R104. -/
theorem assembleColumns_reaches (hy : y < g.height) (cols : Nat) :
    ∀ {x : Nat} {acc : Memory × Nat} {t : State}, AfterPixels s g raw y x acc t → x + cols = g.width →
      ∃ u, reaches cols t u ∧ AfterPixels s g raw y g.width
        (assembleColumns g (fun a => readByte .raw a (setMem .raw raw s)) y cols x acc) u := by
  induction cols with
  | zero =>
    intro x acc t h hx
    obtain rfl : x = g.width := hx
    exact ⟨t, reaches_zero t, h⟩
  | succ cols ih =>
    intro x acc t h hx
    obtain ⟨u, hu, hpixel⟩ := pixel_reaches hok h (by omega) hy
    obtain ⟨v, hv, hrest⟩ := ih hpixel (by omega)
    rw [assembleColumns_succ, Nat.add_comm cols]
    exact ⟨v, reaches_add hu hv, hrest⟩

/-- The rest of the image is the row loop of 42_assembler R104. -/
theorem assembleRows_reaches (rows : Nat) :
    ∀ {y : Nat} {acc : Memory × Nat} {t : State}, AfterPixels s g raw y 0 acc t → y + rows = g.height →
      ∃ u, reaches (rows * g.width) t u ∧ AfterPixels s g raw g.height 0
        (assembleRows g (fun a => readByte .raw a (setMem .raw raw s)) rows y acc) u := by
  induction rows with
  | zero =>
    intro y acc t h hy
    obtain rfl : y = g.height := hy
    rw [Nat.zero_mul]
    exact ⟨t, reaches_zero t, h⟩
  | succ rows ih =>
    intro y acc t h hy
    obtain ⟨u, hu, hrow⟩ := assembleColumns_reaches hok (by omega) g.width h (Nat.zero_add _)
    obtain ⟨v, hv, hrest⟩ := ih (hrow.nextRow hok) (by omega)
    rw [Nat.succ_mul, Nat.add_comm]
    exact ⟨v, reaches_add hu hv, hrest⟩

/-- ASM_CHECK and the pixels of an image that fits end the job in DONE with the job function's PIX and draws. -/
theorem assemble_reaches (hs : justStarted s = true) (h : InJob s raw s.pix s.draws t) (hst : t.seq.stage = .asmCheck)
    (hfits : assemblerFits s.params.asmOobPolicy g = true) :
    let out := assembleRows g (fun a => readByte .raw a (setMem .raw raw s)) g.height 0 (s.pix, s.draws)
    ∃ u, reaches (1 + pixelCount g) t u ∧ showsResult s u
      { phase := .done, errCode := .none, errRow := 0, errValue := 0, raw := raw, pix := out.1, draws := out.2 } := by
  obtain ⟨hwidth, hheight, -⟩ := startChecks_dims hok
  have hstep := asmCheckStep_completes (h.geometry.trans (startChecks_ok hok).1)
  rw [if_pos (by rw [h.params]; exact hfits)] at hstep
  have hfirst : AfterPixels s g raw 0 0 (s.pix, s.draws)
      { t with seq := { t.seq with y := 0, x := 0, stage := .pixel } } :=
    { h.withSeq _ with
      seqX := by simp
      seqY := (if_neg (by omega)).symm
      running := fun _ => rfl
      ended := fun h0 => absurd h0 (by simp; omega) }
  obtain ⟨u, hu, hall⟩ := assembleRows_reaches hok g.height hfirst (Nat.zero_add _)
  obtain ⟨hhalt, hdone⟩ := hall.ended (hall.seqY.trans (if_neg (by omega)))
  refine ⟨u, ?_, hall.showsResult_done hs hhalt hdone⟩
  rw [pixelCount, Nat.mul_comm]
  exact reaches_add (reaches_one h.agenda (by simp [hst]) ((engineStep_asmCheck hst).trans hstep)) hu

/-- ASM_CHECK of an image that does not fit ends the job (42_assembler R101). -/
theorem assemblerMisfit_reaches (h : InJob s raw s.pix s.draws t) (hst : t.seq.stage = .asmCheck)
    (hfits : ¬ assemblerFits s.params.asmOobPolicy g = true) : reaches 1 t (raiseError .rangeAssemble 0 0 t) := by
  have hstep := asmCheckStep_completes (h.geometry.trans (startChecks_ok hok).1)
  rw [if_neg (by rw [h.params]; exact hfits)] at hstep
  exact reaches_one h.agenda (by simp [hst]) ((engineStep_asmCheck hst).trans hstep)

end

/-! ## The job -/

/-- A START that fails the start checks halts after CHECK with the job function's error. -/
theorem startError_reaches {s : State} {e : ErrCode × Byte} (hs : justStarted s = true) (he : startChecks s = .error e) :
    ∃ t, reaches 1 s t ∧ showsResult s t (jobFunction s) := by
  obtain ⟨hst, -, -, -, -, hag⟩ := (justStarted_iff s).1 hs
  have hstep : checkStep s = .next (raiseError e.1 0 e.2 s) := by simp only [checkStep, he]
  refine ⟨_, reaches_one hag (by simp [hst]) ((engineStep_check hst).trans hstep), ?_⟩
  simpa only [jobFunction, he] using (InJob.start hag).showsResult_raiseError e.1 (by decide) e.2

/-- The defilter stage of a job that passes the start checks agrees with the job function's, after CHECK. -/
theorem defilterStage_agrees {s : State} {g : Geometry} (hs : justStarted s = true) (hok : startChecks s = .ok g) :
    ∃ u, reaches 1 s u ∧ defilterAgrees s g g.height u (defilterStage g s) := by
  obtain ⟨u, hu, hrow⟩ := check_reaches hok hs
  exact ⟨u, hu, defilterRows_agrees hok g.height hrow (Nat.zero_add _) (by simp)⟩

/-- A job whose rows are all good and whose image fits halts after the steps of 70_reset R137, with the job function's
result. -/
theorem completeJob_reaches {s : State} {g : Geometry} (hs : justStarted s = true) (hok : startChecks s = .ok g)
    (hd : (defilterStage g s).error = none) (hfits : assemblerFits s.params.asmOobPolicy g = true) :
    ∃ t, reaches (completeJobSteps g) s t ∧ showsResult s t (jobFunction s) := by
  obtain ⟨u, hu, hagrees⟩ := defilterStage_agrees hs hok
  simp only [defilterAgrees, hd] at hagrees
  obtain ⟨v, hv, hjob, hst⟩ := hagrees
  obtain ⟨w, hw, hshows⟩ := assemble_reaches hok hs hjob hst hfits
  refine ⟨w, ?_, ?_⟩
  · rw [completeJobSteps, Nat.add_assoc (1 + _)]
    exact reaches_add (reaches_add hu hv) hw
  · simpa only [jobFunction, hok, hd, if_pos hfits] using hshows

/-- A job with a bad row halts with the job function's error. -/
theorem defilterError_reaches {s : State} {g : Geometry} {e : ErrCode × Nat × Byte} (hs : justStarted s = true)
    (hok : startChecks s = .ok g) (hd : (defilterStage g s).error = some e) :
    ∃ n t, reaches n s t ∧ showsResult s t (jobFunction s) := by
  obtain ⟨u, hu, hagrees⟩ := defilterStage_agrees hs hok
  simp only [defilterAgrees, hd] at hagrees
  obtain ⟨n, v, hv, hshows⟩ := hagrees
  exact ⟨_, v, reaches_add hu hv, by simpa only [jobFunction, hok, hd] using hshows⟩

/-- A job whose rows are all good and whose image does not fit halts with the job function's error. -/
theorem assembleError_reaches {s : State} {g : Geometry} (hs : justStarted s = true) (hok : startChecks s = .ok g)
    (hd : (defilterStage g s).error = none) (hfits : ¬ assemblerFits s.params.asmOobPolicy g = true) :
    ∃ n t, reaches n s t ∧ showsResult s t (jobFunction s) := by
  obtain ⟨u, hu, hagrees⟩ := defilterStage_agrees hs hok
  simp only [defilterAgrees, hd] at hagrees
  obtain ⟨v, hv, hjob, hst⟩ := hagrees
  refine ⟨_, _, reaches_add (reaches_add hu hv) (assemblerMisfit_reaches hok hjob hst hfits), ?_⟩
  simpa only [jobFunction, hok, hd, if_neg hfits] using hjob.showsResult_raiseError .rangeAssemble (by decide) 0

/-- From every START the engine halts, and shows the result of the job function. -/
theorem jobFunction_reached {s : State} (hs : justStarted s = true) :
    ∃ n t, reaches n s t ∧ showsResult s t (jobFunction s) := by
  cases hok : startChecks s with
  | error e => exact ⟨1, startError_reaches hs hok⟩
  | ok g =>
    cases hd : (defilterStage g s).error with
    | some e => exact defilterError_reaches hs hok hd
    | none =>
      by_cases hfits : assemblerFits s.params.asmOobPolicy g = true
      · exact ⟨_, completeJob_reaches hs hok hd hfits⟩
      · exact assembleError_reaches hs hok hd hfits

/-- Settles O54: each stage of the engine is a lemma about `reaches`, and the loops of the job function are inductions
over rows, bytes and pixels. -/
theorem engineComputesTheJobFunction : Obligations.EngineComputesTheJobFunction := by
  unfold Obligations.EngineComputesTheJobFunction
  intro s hs
  obtain ⟨n, t, ⟨hrun, hbefore⟩, hshows⟩ := jobFunction_reached hs
  exact ⟨n, t, hrun, hshows, hbefore⟩

end Sys2Proof.Machine
end

section
/-! PROOF. The invariant: it holds at reset, every step keeps it (O50, O51), and under it the engine never stops (O52).
A step inside a job keeps it by `Inv.stepsInJob`, a step that ends one in an error by `Inv.raiseError`; one lemma per
stage says which, from that stage's inversion lemma in Laws/Step. -/

namespace Sys2Proof.Machine

/-! ## The clauses of the invariant -/

/-- The phases of a stage (10_state R17, R31). -/
theorem phaseMatches_iff (ph : Phase) (st : Stage) : phaseMatches ph st = true ↔
    match st with
    | .halt => ph ≠ .defilter ∧ ph ≠ .assemble
    | .check | .rowFetch | .recon | .commit => ph = .defilter
    | .asmCheck | .pixel => ph = .assemble := by
  cases ph <;> cases st <;> decide

/-- Where SEQ stands in each stage, as bounds (10_state R29, R31). -/
theorem positionFits_iff (policy : OobPolicy) (g : Geometry) (q : Sequencer) : positionFits policy g q = true ↔
    match q.stage with
    | .halt | .check => True
    | .rowFetch => q.y < g.height
    | .recon => q.y < g.height ∧ q.i < scanLength g ∧ q.ft.toNat < 5
    | .commit => q.y < g.height ∧ q.i = scanLength g ∧ q.ft.toNat < 5
    | .asmCheck => q.y = g.height
    | .pixel => q.y < g.height ∧ q.x < g.width ∧ assemblerFits policy g = true := by
  obtain ⟨st, y, i, x, ft⟩ := q
  cases st <;> simp [positionFits, legalFilter, and_assoc]

/-- Outside ERROR nothing is recorded (10_state R18, R25, R26). -/
theorem errorsMatch_iff_of_phase {r : Regs} (h : r.phase ≠ .error) :
    errorsMatch r = true ↔ r.errCode = .none ∧ r.errRow = 0 ∧ r.errValue = 0 := by
  unfold errorsMatch
  split <;> simp_all

/-- A job that stands inside a configuration that passed the start checks fits, whatever its stage. -/
theorem jobFits_of_positionFits {s : State} {g : Geometry} (hok : startChecks s = .ok g)
    (hpos : positionFits s.params.asmOobPolicy g s.seq = true) : jobFits s = true := by
  unfold jobFits
  split
  · rfl
  · rfl
  · rw [hok]; exact hpos

theorem jobFits_of_halt {s : State} (h : s.seq.stage = .halt) : jobFits s = true := by
  simp only [jobFits, h]

theorem storeOk_congr {sp : Space} {s t : State} (hm : memOf sp t = memOf sp s) (hp : t.params = s.params)
    (h : storeOk sp s) : storeOk sp t := by
  unfold storeOk
  rw [hm, hp]
  exact h

/-- The geometry of a configuration that passed the start checks is the only one. -/
theorem eq_of_startChecks_ok {s : State} {g g' : Geometry} (hok : startChecks s = .ok g)
    (hg' : geometry s.reg = some g') : g' = g :=
  Option.some.inj (hg'.symm.trans (startChecks_ok hok).1)

/-! ## What the invariant says of a state -/

section
variable {s : State} (h : Inv s)
include h

/-- After CHECK the configuration has passed the start checks, and SEQ stands inside it. -/
theorem Inv.running (hhalt : s.seq.stage ≠ .halt) (hcheck : s.seq.stage ≠ .check) :
    ∃ g, startChecks s = .ok g ∧ positionFits s.params.asmOobPolicy g s.seq = true := by
  have hjob := h.job
  unfold jobFits at hjob
  split at hjob
  · next hst => exact absurd hst hhalt
  · next hst => exact absurd hst hcheck
  · split at hjob
    · cases hjob
    · next g hok => exact ⟨g, hok, hjob⟩

/-- While not BUSY the engine is halted. -/
theorem Inv.halted (hb : busy s.reg = false) : s.seq.stage = .halt := by
  have hph := (phaseMatches_iff _ _).1 h.phase
  unfold busy at hb
  cases hst : s.seq.stage <;> simp_all

/-- A job that runs has raised no error. -/
theorem Inv.phase_ne_error (hst : s.seq.stage ≠ .halt) : s.reg.phase ≠ .error := by
  have hph := (phaseMatches_iff _ _).1 h.phase
  intro he
  cases hs : s.seq.stage <;> simp_all

/-! ## What keeps it -/

/-- The counters, the host's data and the agenda do not matter to it. -/
theorem Inv.congr {t : State} (hp : t.params = s.params) (hr : t.reg = s.reg) (hq : t.seq = s.seq)
    (hm : ∀ sp, memOf sp t = memOf sp s) : Inv t where
  params := by rw [hp]; exact h.params
  stores sp := storeOk_congr (hm sp) hp (h.stores sp)
  phase := by rw [hr, hq]; exact h.phase
  errors := by rw [hr]; exact h.errors
  job := by
    have hok : startChecks t = startChecks s := by apply startChecks_congr hp <;> rw [hr]
    have hjob := h.job
    unfold jobFits at hjob ⊢
    rw [hq, hok, hp]
    exact hjob

theorem Inv.withAgenda (l : List Turn) : Inv { s with agenda := l } := h.congr rfl rfl rfl (by simp)

/-- An error that records what its code says ends the job (60_exceptions R113). -/
theorem Inv.raiseError {e : ErrCode} {row : Nat} {v : Byte} (he : errorsMatch (raiseError e row v s).reg = true) :
    Inv (raiseError e row v s) where
  params := h.params
  stores sp := storeOk_congr (raiseError_memOf e row v s sp) rfl (h.stores sp)
  phase := rfl
  errors := he
  job := rfl

/-- A step inside a job keeps it: of the registers only PHASE may change, and SEQ moves on inside the configuration. -/
theorem Inv.stepsInJob {t : State} {g : Geometry} (hok : startChecks s = .ok g) (hst : s.seq.stage ≠ .halt)
    (hp : t.params = s.params) (hr : t.reg = { s.reg with phase := t.reg.phase }) (hstores : ∀ sp, storeOk sp t)
    (hph : phaseMatches t.reg.phase t.seq.stage = true) (hne : t.reg.phase ≠ .error)
    (hpos : positionFits s.params.asmOobPolicy g t.seq = true) : Inv t where
  params := by rw [hp]; exact h.params
  stores := hstores
  phase := hph
  errors := by
    rw [errorsMatch_iff_of_phase hne, hr]
    exact (errorsMatch_iff_of_phase (h.phase_ne_error hst)).1 h.errors
  job := by
    have hok' : startChecks t = .ok g := by
      rw [← hok]
      apply startChecks_congr hp <;> rw [hr]
    exact jobFits_of_positionFits hok' (by rw [hp]; exact hpos)

end

/-! ## The engine keeps it, stage by stage -/

/-- After a pixel of the image the engine stands at another, or has ended the job (10_state R31). -/
theorem advancePixel_cases {g : Geometry} {s : State} (hst : s.seq.stage = .pixel) (hx : s.seq.x < g.width)
    (hy : s.seq.y < g.height) :
    ((advancePixel g s).seq.stage = .halt ∧ (advancePixel g s).reg.phase = .done) ∨
    ((advancePixel g s).seq.stage = .pixel ∧ (advancePixel g s).reg.phase = s.reg.phase ∧
      (advancePixel g s).seq.x < g.width ∧ (advancePixel g s).seq.y < g.height) := by
  by_cases hcol : s.seq.x + 1 = g.width
  · by_cases hrow : s.seq.y + 1 = g.height
    · left; simp [advancePixel_eq, hcol, hrow]
    · right; simp [advancePixel_eq, hcol, hrow, hst]; omega
  · right
    have hsame : s.seq.y ≠ g.height := by omega
    simp [advancePixel_eq, hcol, hsame, hst]; omega

/-- The samples of a pixel are four bytes, and change at most the count of draws. -/
theorem samples_eq (g : Geometry) (o : Nat) (s : State) :
    ∃ (bs : List Byte) (d : Nat), bs.length = 4 ∧ samples g o s = (bs, { s with draws := d }) := by
  obtain ⟨d, hd⟩ := samples_state g o s
  exact ⟨(samples g o s).1, d, samples_length g o s, by rw [← hd]⟩

section
variable {s t : State} (h : Inv s)
include h

theorem checkStep_keeps_inv (hst : s.seq.stage = .check) (ht : checkStep s = .next t) : Inv t := by
  have hph : s.reg.phase = .defilter := by simpa [hst, phaseMatches_iff] using h.phase
  rcases checkStep_next ht with ⟨e, he, rfl⟩ | ⟨g, hok, rfl⟩
  · apply h.raiseError
    rcases startChecks_error he with rfl | ⟨rfl, -⟩ <;> simp [errorsMatch]
  · obtain ⟨-, -, -, -, -, hrow, -, -⟩ := startChecks_ok hok
    have hstores := storeOk_writeBytes (sp' := .prev) (a := 0) (bs := List.replicate (scanLength g) 0) h.stores
      (by simpa [Params.capacity] using hrow)
    exact h.stepsInJob hok (by simp [hst]) rfl rfl (fun sp => storeOk_congr (memOf_withSeq ..) rfl (hstores sp))
      (by simp [hph, phaseMatches_iff]) (by simp [hph]) ((positionFits_iff ..).2 (startChecks_dims hok).2.1)

theorem rowFetchStep_keeps_inv (hst : s.seq.stage = .rowFetch) (ht : rowFetchStep s = .next t) : Inv t := by
  have hph : s.reg.phase = .defilter := by simpa [hst, phaseMatches_iff] using h.phase
  obtain ⟨g, hok, hpos⟩ := h.running (by simp [hst]) (by simp [hst])
  simp only [positionFits_iff, hst] at hpos
  obtain ⟨g', hg', hcases⟩ := rowFetchStep_next ht
  obtain rfl := eq_of_startChecks_ok hok hg'
  have hdecode := decodeFilter_cases (readByte .inp (s.seq.y * rowStride g') s)
  rcases hcases with ⟨-, rfl⟩ | ⟨-, -, ⟨v, hv, rfl⟩ | ⟨i, hi, hrow, rfl⟩⟩
  · exact h.raiseError (by simp [errorsMatch])
  · obtain ⟨hge, rfl⟩ : 5 ≤ (readByte .inp (s.seq.y * rowStride g') s).toNat ∧
        v = readByte .inp (s.seq.y * rowStride g') s := by simpa [hv] using hdecode
    exact h.raiseError (by simp [errorsMatch, hge])
  · have hlegal : (readByte .inp (s.seq.y * rowStride g') s).toNat < 5 := by simpa [hi] using hdecode
    have hstores := storeOk_writeBytes (sp' := .cur) (a := 0)
      (bs := readBytes .inp (s.seq.y * rowStride g' + 1) (scanLength g') s) h.stores
      (by simpa [Params.capacity] using hrow)
    exact h.stepsInJob hok (by simp [hst]) rfl rfl (fun sp => storeOk_congr (memOf_withSeq ..) rfl (hstores sp))
      (by simp [hph, phaseMatches_iff]) (by simp [hph])
      ((positionFits_iff ..).2 ⟨hpos, (startChecks_row hok).2, hlegal⟩)

theorem exec_keeps_inv {ft : Instr} (hst : s.seq.stage = .recon) (ht : exec ft s = .next t) : Inv t := by
  have hph : s.reg.phase = .defilter := by simpa [hst, phaseMatches_iff] using h.phase
  obtain ⟨g, hok, hpos⟩ := h.running (by simp [hst]) (by simp [hst])
  simp only [positionFits_iff, hst] at hpos
  obtain ⟨hy, hlt, hlegal⟩ := hpos
  obtain ⟨g', hg', hi, rfl⟩ := exec_next ht
  obtain rfl := eq_of_startChecks_ok hok hg'
  have hstores := storeOk_writeByte (sp' := .cur) (b := reconValue ft g' s) h.stores hi
  refine h.stepsInJob hok (by simp [hst]) rfl rfl
    (fun sp => storeOk_congr (advanceRecon_memOf ..) rfl (hstores sp)) ?_ (by simp [advanceRecon, hph]) ?_
  · by_cases hlast : s.seq.i + 1 = scanLength g' <;> simp [advanceRecon, hlast, hph, hst, phaseMatches_iff]
  · by_cases hlast : s.seq.i + 1 = scanLength g'
    · simp [positionFits_iff, advanceRecon, hlast, hy, hlegal]
    · have hnext : s.seq.i + 1 < scanLength g' := by omega
      simp [positionFits_iff, advanceRecon, hlast, hst, hy, hlegal, hnext]

theorem commitStep_keeps_inv (hst : s.seq.stage = .commit) (ht : commitStep s = .next t) : Inv t := by
  have hph : s.reg.phase = .defilter := by simpa [hst, phaseMatches_iff] using h.phase
  obtain ⟨g, hok, hpos⟩ := h.running (by simp [hst]) (by simp [hst])
  simp only [positionFits_iff, hst] at hpos
  obtain ⟨hy, -, -⟩ := hpos
  obtain ⟨g', hg', hrow, hraw, rfl⟩ := commitStep_next ht
  obtain rfl := eq_of_startChecks_ok hok hg'
  have hrawStores := storeOk_writeBytes (sp' := .raw) (bs := readBytes .cur 0 (scanLength g') s) h.stores
    (by simpa [Params.capacity] using hraw)
  have hstores := storeOk_writeBytes (sp' := .prev) (a := 0) (bs := readBytes .cur 0 (scanLength g') s) hrawStores
    (by simpa [Params.capacity] using hrow)
  refine h.stepsInJob hok (by simp [hst]) (by simp [advanceCommit_eq]) (by simp [advanceCommit_eq])
    (fun sp => storeOk_congr (advanceCommit_memOf ..) (by simp [advanceCommit_eq]) (hstores sp)) ?_ ?_ ?_
  · by_cases hlast : s.seq.y + 1 = g'.height <;> simp [advanceCommit_eq, hlast, hph, phaseMatches_iff]
  · by_cases hlast : s.seq.y + 1 = g'.height <;> simp [advanceCommit_eq, hlast, hph]
  · by_cases hlast : s.seq.y + 1 = g'.height
    · simp [positionFits_iff, advanceCommit_eq, hlast]
    · have hnext : s.seq.y + 1 < g'.height := by omega
      simp [positionFits_iff, advanceCommit_eq, hlast, hnext]

theorem asmCheckStep_keeps_inv (hst : s.seq.stage = .asmCheck) (ht : asmCheckStep s = .next t) : Inv t := by
  have hph : s.reg.phase = .assemble := by simpa [hst, phaseMatches_iff] using h.phase
  obtain ⟨g, hok, -⟩ := h.running (by simp [hst]) (by simp [hst])
  obtain ⟨g', hg', hcases⟩ := asmCheckStep_next ht
  obtain rfl := eq_of_startChecks_ok hok hg'
  rcases hcases with ⟨hfits, rfl⟩ | ⟨-, rfl⟩
  · obtain ⟨hwidth, hheight, -⟩ := startChecks_dims hok
    exact h.stepsInJob hok (by simp [hst]) rfl rfl (fun sp => storeOk_congr (memOf_withSeq ..) rfl (h.stores sp))
      (by simp [hph, phaseMatches_iff]) (by simp [hph]) ((positionFits_iff ..).2 ⟨hheight, hwidth, hfits⟩)
  · exact h.raiseError (by simp [errorsMatch])

theorem pixelStep_keeps_inv (hst : s.seq.stage = .pixel) (ht : pixelStep s = .next t) : Inv t := by
  have hph : s.reg.phase = .assemble := by simpa [hst, phaseMatches_iff] using h.phase
  obtain ⟨g, hok, hpos⟩ := h.running (by simp [hst]) (by simp [hst])
  simp only [positionFits_iff, hst] at hpos
  obtain ⟨hy, hx, hfits⟩ := hpos
  obtain ⟨g', hg', -, hpix, rfl⟩ := pixelStep_next ht
  obtain rfl := eq_of_startChecks_ok hok hg'
  obtain ⟨bs, d, hlen, hsamples⟩ := samples_eq g' (bytesPerPixel g' * (g'.width * s.seq.y + s.seq.x)) s
  rw [hsamples]
  have hstores := storeOk_writeBytes (s := { s with draws := d }) (sp' := .pix) (bs := bs) h.stores
    (by simpa [Params.capacity, hlen] using hpix)
  have hadvance := advancePixel_cases (g := g')
    (s := writeBytes .pix (4 * (s.seq.y * g'.width + s.seq.x)) bs { s with draws := d }) hst hx hy
  refine h.stepsInJob hok (by simp [hst]) (by simp [advancePixel_eq]) (by simp [advancePixel_eq])
    (fun sp => storeOk_congr (advancePixel_memOf ..) (by simp [advancePixel_eq]) (hstores sp)) ?_ ?_ ?_
  · rcases hadvance with ⟨hstage, hphase⟩ | ⟨hstage, hphase, -⟩ <;> simp [hstage, hphase, hph, phaseMatches_iff]
  · rcases hadvance with ⟨-, hphase⟩ | ⟨-, hphase, -⟩ <;> simp [hphase, hph]
  · rcases hadvance with ⟨hstage, -⟩ | ⟨hstage, -, hx', hy'⟩
    · simp [positionFits_iff, hstage]
    · simp [positionFits_iff, hstage, hx', hy', hfits]

/-- Every engine step keeps the invariant (10_state R31). -/
theorem engineStep_keeps_inv (ht : engineStep s = .next t) : Inv t := by
  rcases engineStep_cases ht with ⟨-, rfl⟩ | ⟨hst, ht⟩ | ⟨hst, ht⟩ | ⟨hst, ft, -, ht⟩ | ⟨hst, ht⟩ | ⟨hst, ht⟩ | ⟨hst, ht⟩
  · exact h
  · exact checkStep_keeps_inv h hst ht
  · exact rowFetchStep_keeps_inv h hst ht
  · exact exec_keeps_inv h hst ht
  · exact commitStep_keeps_inv h hst ht
  · exact asmCheckStep_keeps_inv h hst ht
  · exact pixelStep_keeps_inv h hst ht

end

/-! ## The outside keeps it -/

/-- A reset state meets the invariant: every store is empty and every register 0 (10_state R35; 70_reset R127). -/
theorem inv_of_reset {s : State} (hp : s.params.wf) (hr : s.reg = Regs.reset) (hq : s.seq = Sequencer.reset)
    (hm : ∀ sp, memOf sp s = []) : Inv s where
  params := hp
  stores sp := by simp [storeOk, hm]
  phase := by rw [hr, hq]; rfl
  errors := by rw [hr]; rfl
  job := jobFits_of_halt (by rw [hq]; rfl)

section
variable {s t : State} (h : Inv s)
include h

/-- A START that is accepted begins a job (10_state R33). -/
theorem startCommand_keeps_inv : Inv (startCommand s) := by
  unfold startCommand
  split
  · exact h
  · exact ⟨h.params, fun sp => storeOk_congr (memOf_withRegSeq ..) rfl (h.stores sp), rfl, rfl, rfl⟩

/-- While not BUSY the configuration may change: no job depends on it. -/
theorem configWrite_keeps_inv (hb : busy s.reg = false) {r : Regs} (hphase : r.phase = s.reg.phase)
    (hcode : r.errCode = s.reg.errCode) (hrow : r.errRow = s.reg.errRow) (hvalue : r.errValue = s.reg.errValue) :
    Inv { s with reg := r } where
  params := h.params
  stores sp := storeOk_congr (memOf_withReg ..) rfl (h.stores sp)
  phase := by simpa [hphase] using h.phase
  errors := by simpa [errorsMatch, hphase, hcode, hrow, hvalue] using h.errors
  job := jobFits_of_halt (h.halted hb)

theorem writeRegister_keeps_inv (off : Nat) (w : Word) : Inv (writeRegister off w s) := by
  rcases writeRegister_cases off w s with heq | ⟨-, -, -, heq⟩ | ⟨hb, r, heq, hphase, hcode, hrow, hvalue⟩
  · rw [heq]; exact h
  · rw [heq]; exact startCommand_keeps_inv h
  · rw [heq]; exact configWrite_keeps_inv h hb hphase hcode hrow hvalue

/-- While not BUSY a byte of IN may change. -/
theorem inpWrite_keeps_inv (hb : busy s.reg = false) {addr : Nat} (haddr : addr < s.params.inCap) (v : Byte) :
    Inv (writeByte .inp addr v s) where
  params := h.params
  stores := storeOk_writeByte h.stores haddr
  phase := h.phase
  errors := h.errors
  job := jobFits_of_halt (h.halted hb)

/-- Every access of the outside keeps the invariant. -/
theorem hostStep_keeps_inv {a : HostAccess} (ht : hostStep a s = .next t) : Inv t := by
  rcases hostStep_next ht with ⟨off, bytes, -, -, rfl⟩ | ⟨off, bytes, w, -, -, rfl⟩ | ⟨m, addr, bytes, -, -, rfl⟩ |
    ⟨addr, bytes, v, -, hb, haddr, rfl⟩ | ⟨-, rfl⟩
  · exact h.congr rfl rfl rfl (by simp)
  · exact writeRegister_keeps_inv h off w
  · obtain ⟨d, hd⟩ := readMemory_state m addr s
    rw [hd]
    exact h.congr rfl rfl rfl (fun sp => by cases sp <;> rfl)
  · exact inpWrite_keeps_inv h hb haddr v
  · exact inv_of_reset h.params rfl rfl (fun sp => by cases sp <;> rfl)

end

/-- Settles O51: the engine's stages and the accesses of the outside each keep the invariant. -/
theorem everyStepKeepsTheInvariant : Obligations.EveryStepKeepsTheInvariant := by
  unfold Obligations.EveryStepKeepsTheInvariant
  intro s t h ht
  rcases step_cases s with ⟨-, heq⟩ | ⟨a, rest, -, heq⟩
  · exact engineStep_keeps_inv (h.withAgenda _) (heq.symm.trans ht)
  · exact hostStep_keeps_inv (h.withAgenda rest) (heq.symm.trans ht)

/-- Settles O50. -/
theorem invariantHoldsAtReset : Obligations.InvariantHoldsAtReset := by
  unfold Obligations.InvariantHoldsAtReset
  have hreset : ∀ p : Params, p.wf → Inv (State.resetWith p) := fun p hp =>
    inv_of_reset hp rfl rfl (fun sp => by cases sp <;> rfl)
  exact ⟨hreset, hreset Params.ofVectors (by decide)⟩

/-! ## Under it the engine never stops -/

/-- A row of the image lies in RAW's capacity (20_memory R45). -/
theorem rowInRaw {s : State} {g : Geometry} (hok : startChecks s = .ok g) {y : Nat} (hy : y < g.height) :
    y * scanLength g + scanLength g ≤ s.params.rawCap := by
  obtain ⟨-, -, -, -, -, -, hraw, -⟩ := startChecks_ok hok
  calc y * scanLength g + scanLength g = (y + 1) * scanLength g := (Nat.succ_mul ..).symm
    _ ≤ rawLength g := Nat.mul_le_mul_right _ hy
    _ ≤ s.params.rawCap := hraw

/-- A pixel of the image lies in PIX's capacity (20_memory R45). -/
theorem pixelInPix {s : State} {g : Geometry} (hok : startChecks s = .ok g) {x y : Nat} (hx : x < g.width)
    (hy : y < g.height) : 4 * (y * g.width + x) + 4 ≤ s.params.pixCap := by
  obtain ⟨-, -, -, -, -, -, -, hpix⟩ := startChecks_ok hok
  calc 4 * (y * g.width + x) + 4 ≤ 4 * ((y + 1) * g.width) := by rw [Nat.succ_mul y]; omega
    _ ≤ 4 * (g.height * g.width) := Nat.mul_le_mul_left 4 (Nat.mul_le_mul_right _ hy)
    _ = 4 * pixelCount g := by rw [pixelCount, Nat.mul_comm g.width]
    _ ≤ s.params.pixCap := hpix

/-- ROW_FETCH of a job that passed the start checks answers a next state. -/
theorem rowFetchStep_answers {s : State} {g : Geometry} (hok : startChecks s = .ok g) : ∃ t, rowFetchStep s = .next t := by
  obtain ⟨hg, -, -, -, hcap, hrow, -, -⟩ := startChecks_ok hok
  by_cases hin : s.reg.inLen.toNat < s.seq.y * rowStride g + rowStride g
  · exact ⟨_, rowFetchStep_short hg hin⟩
  · rcases decodeFilter_cases (readByte .inp (s.seq.y * rowStride g) s) with ⟨-, i, hi⟩ | ⟨-, hv⟩
    · exact ⟨_, rowFetchStep_completes hg (by omega) (by omega) hrow hi⟩
    · exact ⟨_, rowFetchStep_badFilter hg (by omega) (by omega) hv⟩

/-- From a state that meets the invariant every stage's step answers a next state. -/
theorem engineStep_answers {s : State} (h : Inv s) : ∃ t, engineStep s = .next t := by
  by_cases hhalt : s.seq.stage = .halt
  · exact ⟨s, engineStep_halt hhalt⟩
  by_cases hcheck : s.seq.stage = .check
  · rw [engineStep_check hcheck]
    rcases checkStep_cases s with ⟨e, -, ht⟩ | ⟨g, -, ht⟩
    · exact ⟨_, ht⟩
    · exact ⟨_, ht⟩
  obtain ⟨g, hok, hpos⟩ := h.running hhalt hcheck
  obtain ⟨hg, -, -, -, -, hrow, hraw, -⟩ := startChecks_ok hok
  cases hst : s.seq.stage <;> simp only [positionFits_iff, hst] at hpos
  case halt => exact absurd hst hhalt
  case check => exact absurd hst hcheck
  case rowFetch => rw [engineStep_rowFetch hst]; exact rowFetchStep_answers hok
  case recon =>
    obtain ⟨-, hi, hlegal⟩ := hpos
    obtain ⟨ft, hft⟩ : ∃ ft, decodeFilter s.seq.ft = .instr ft := by
      rcases decodeFilter_cases s.seq.ft with ⟨-, hft⟩ | ⟨hge, -⟩
      · exact hft
      · omega
    exact ⟨_, (engineStep_recon hst hft).trans (exec_completes hg (by omega) ft)⟩
  case commit => exact ⟨_, (engineStep_commit hst).trans (commitStep_completes hg hrow (rowInRaw hok hpos.1))⟩
  case asmCheck => exact ⟨_, (engineStep_asmCheck hst).trans (asmCheckStep_completes hg)⟩
  case pixel =>
    obtain ⟨hy, hx, -⟩ := hpos
    exact ⟨_, (engineStep_pixel hst).trans (pixelStep_completes hg (by omega) (pixelInPix hok hx hy))⟩

/-- Settles O52. -/
theorem engineNeverStops : Obligations.EngineNeverStops := by
  unfold Obligations.EngineNeverStops
  intro s h hturn
  rw [step_engine hturn]
  exact engineStep_answers (h.withAgenda _)

end Sys2Proof.Machine
end

section
/-! PROOF. The register window (10_state R14 to R18, R32, R33; O1, O3 to O7): what each word reads, what a write of it
does, and reset. -/

namespace Sys2Proof.Machine

/-! ## Register accesses as steps -/

/-- An aligned read of the register window (20_memory R40). -/
theorem step_readReg {s : State} {rest : List Turn} {off : Nat} (h : s.agenda = .host (.readReg off 4) :: rest)
    (halign : off % 4 = 0) (hoff : off ≤ 0x3C) :
    step s = .next { s with agenda := rest, hostData := readRegister off s.reg } := by
  rw [step_host h, hostStep, if_pos ((admittedRegister_iff off 4).2 ⟨rfl, halign, hoff⟩)]

/-- An aligned write of the register window (20_memory R40). -/
theorem step_writeReg {s : State} {rest : List Turn} {off : Nat} {w : Word}
    (h : s.agenda = .host (.writeReg off 4 w) :: rest) (halign : off % 4 = 0) (hoff : off ≤ 0x3C) :
    step s = .next (writeRegister off w { s with agenda := rest }) := by
  rw [step_host h, hostStep, if_pos ((admittedRegister_iff off 4).2 ⟨rfl, halign, hoff⟩)]

/-! ## What the words hold -/

/-- An 8-bit field in a register word stands in bits 7:0 (10_state R14). -/
theorem byteField_value (b : Byte) : (b.setWidth 32).extractLsb' 0 8 = b := by
  ext i hi
  simp [hi]
  omega

/-- Above an 8-bit field a register word reads 0 (10_state R15). -/
theorem byteField_reserved (b : Byte) : (b.setWidth 32).extractLsb' 8 24 = 0 := by
  ext i hi
  simp

/-- What is kept of a word written to an 8-bit field (10_state R15). -/
theorem byteField_written (w : Word) : (w.setWidth 8).setWidth 32 = w &&& 0xFF := by
  apply BitVec.eq_of_toNat_eq
  simp [Nat.and_two_pow_sub_one_eq_mod _ 8]
  omega

/-- Reserved registers read 0 (10_state R15). -/
theorem readRegister_reserved {off : Nat} (h : 0x24 ≤ off) (r : Regs) : readRegister off r = 0 := by
  unfold readRegister
  split <;> simp at h ⊢

/-- Every register reads 0 after reset (10_state R35). -/
theorem readRegister_reset (off : Nat) : readRegister off Regs.reset = 0 := by
  unfold readRegister
  split <;> rfl

theorem statusWord_phase (r : Regs) : (statusWord r).extractLsb' 0 3 = phaseCode r.phase := by
  unfold statusWord
  cases r.phase <;> cases r.errCode <;> decide

theorem statusWord_error (r : Regs) : (statusWord r).extractLsb' 8 4 = errorCode r.errCode := by
  unfold statusWord
  cases r.phase <;> cases r.errCode <;> decide

theorem statusWord_reserved (r : Regs) :
    (statusWord r).extractLsb' 3 5 = 0 ∧ (statusWord r).extractLsb' 12 20 = 0 := by
  unfold statusWord
  cases r.phase <;> cases r.errCode <;> decide

/-- BUSY is PHASE 1 or 2 (10_state R17). -/
theorem busy_iff_phaseCode (r : Regs) : busy r = true ↔ phaseCode r.phase = 1 ∨ phaseCode r.phase = 2 := by
  unfold busy
  cases r.phase <;> decide

/-! ## What a write does -/

theorem startCommand_busy {s : State} (h : busy s.reg = true) : startCommand s = s := by
  simp only [startCommand, h, if_true]

theorem startCommand_idle {s : State} (h : busy s.reg = false) : startCommand s = { s with
    reg := { s.reg with errCode := .none, errRow := 0, errValue := 0, phase := .defilter }
    seq := { s.seq with stage := .check } } := by
  simp only [startCommand, h, Bool.false_eq_true, if_false]

/-- A write of CTRL with bit 0 set is START, and no other write of it has an effect (10_state R16). -/
theorem writeRegister_ctrl (w : Word) (s : State) :
    writeRegister 0x00 w s = if w.getLsbD 0 then startCommand s else s := rfl

/-- While BUSY no write has an effect (10_state R32, R33). -/
theorem writeRegister_busy {s : State} (h : busy s.reg = true) (off : Nat) (w : Word) : writeRegister off w s = s := by
  rcases writeRegister_cases off w s with heq | ⟨-, -, hb, -⟩ | ⟨hb, -⟩
  · exact heq
  · rw [h] at hb; cases hb
  · rw [h] at hb; cases hb

/-- The read-only and the reserved registers ignore a write (10_state R15). -/
theorem writeRegister_readOnly {off : Nat} (h : off = 0x04 ∨ off = 0x1C ∨ 0x20 ≤ off) (w : Word) (s : State) :
    writeRegister off w s = s := by
  unfold writeRegister
  split <;> simp at h ⊢

/-- The register file after a write to a configuration register (10_state R20 to R24). -/
def configField (off : Nat) (w : Word) (r : Regs) : Regs :=
  match off with
  | 0x08 => { r with width := w }
  | 0x0C => { r with height := w }
  | 0x10 => { r with bitDepth := w.setWidth 8 }
  | 0x14 => { r with colorType := w.setWidth 8 }
  | 0x18 => { r with inLen := w }
  | _ => r

/-- While not BUSY a write of a configuration register changes its field. -/
theorem writeRegister_config {s : State} (h : busy s.reg = false) {off : Nat}
    (hoff : off ∈ [0x08, 0x0C, 0x10, 0x14, 0x18]) (w : Word) :
    writeRegister off w s = { s with reg := configField off w s.reg } := by
  simp only [List.mem_cons, List.not_mem_nil, or_false] at hoff
  rcases hoff with rfl | rfl | rfl | rfl | rfl <;>
    simp only [writeRegister, writeConfig, h, Bool.false_eq_true, if_false, configField]

/-- A configuration register reads back what was written to it. -/
theorem readRegister_configField_same {off : Nat} (hoff : off ∈ [0x08, 0x0C, 0x10, 0x14, 0x18]) (w : Word) (r : Regs) :
    readRegister off (configField off w r) = if off = 0x10 ∨ off = 0x14 then w &&& 0xFF else w := by
  simp only [List.mem_cons, List.not_mem_nil, or_false] at hoff
  rcases hoff with rfl | rfl | rfl | rfl | rfl <;> simp [readRegister, configField, byteField_written]

/-- Every other register reads as before. -/
theorem readRegister_configField_other {off off' : Nat} (h : off' ≠ off) (w : Word) (r : Regs) :
    readRegister off' (configField off w r) = readRegister off' r := by
  unfold configField
  split
  case h_6 => rfl
  all_goals
    unfold readRegister
    split <;> first | exact absurd rfl h | rfl

/-! ## The obligations -/

/-- Settles O1. -/
theorem resetClearsRegistersAndFreesMemory : Obligations.ResetClearsRegistersAndFreesMemory := by
  unfold Obligations.ResetClearsRegistersAndFreesMemory
  refine ⟨rfl, fun p => ⟨readRegister_reset, rfl, rfl, rfl, fun sp a => readByte_unwritten ?_ a⟩⟩
  cases sp <;> rfl

/-- Settles O3: the read is `readRegister`, and STATUS is its two codes. -/
theorem registerReadsFollowTheMap : Obligations.RegisterReadsFollowTheMap := by
  unfold Obligations.RegisterReadsFollowTheMap
  intro s rest off h halign hoff
  refine ⟨readRegister off s.reg, step_readReg h halign hoff, ?_, ?_, ?_, ?_, ?_, ?_, ?_, ?_, ?_,
    fun hres => readRegister_reserved hres _⟩
  · rintro rfl; rfl
  · rintro rfl
    obtain ⟨hlow, hhigh⟩ := statusWord_reserved s.reg
    simp only [readRegister, statusWord_phase, statusWord_error, hlow, hhigh, busy_iff_phaseCode]
    refine ⟨?_, trivial, ?_, trivial, trivial⟩
    · cases s.reg.phase <;> rfl
    · cases s.reg.errCode <;> rfl
  · rintro rfl; rfl
  · rintro rfl; rfl
  · rintro rfl; exact ⟨byteField_value _, byteField_reserved _⟩
  · rintro rfl; exact ⟨byteField_value _, byteField_reserved _⟩
  · rintro rfl; rfl
  · rintro rfl; rfl
  · rintro rfl; exact ⟨byteField_value _, byteField_reserved _⟩

/-- Settles O4. -/
theorem idleConfigurationWriteReadsBack : Obligations.IdleConfigurationWriteReadsBack := by
  unfold Obligations.IdleConfigurationWriteReadsBack
  intro s rest off w h hb hoff
  have hwindow : off % 4 = 0 ∧ off ≤ 0x3C := by
    simp only [List.mem_cons, List.not_mem_nil, or_false] at hoff
    omega
  refine ⟨{ s with agenda := rest, reg := configField off w s.reg }, ?_, readRegister_configField_same hoff w s.reg,
    fun off' hne => readRegister_configField_other hne w s.reg, rfl⟩
  rw [step_writeReg h hwindow.1 hwindow.2, writeRegister_config (s := { s with agenda := rest }) hb hoff]

/-- Settles O5. -/
theorem busyRegisterWritesHaveNoEffect : Obligations.BusyRegisterWritesHaveNoEffect := by
  unfold Obligations.BusyRegisterWritesHaveNoEffect
  intro s rest off w h hb halign hoff
  rw [step_writeReg h halign hoff, writeRegister_busy (s := { s with agenda := rest }) hb]

/-- Settles O6. -/
theorem readOnlyAndReservedWritesHaveNoEffect : Obligations.ReadOnlyAndReservedWritesHaveNoEffect := by
  unfold Obligations.ReadOnlyAndReservedWritesHaveNoEffect
  intro s rest off w h halign hoff hcases
  rw [step_writeReg h halign hoff]
  by_cases hctrl : off = 0x00
  · subst hctrl
    have hclear : w.getLsbD 0 = false := by simpa using hcases
    simp only [writeRegister_ctrl, hclear, Bool.false_eq_true, if_false]
  · rw [writeRegister_readOnly (by omega)]

/-- Settles O7. -/
theorem startClearsErrorsAndBeginsCheck : Obligations.StartClearsErrorsAndBeginsCheck := by
  unfold Obligations.StartClearsErrorsAndBeginsCheck
  intro s rest w h hstart
  have hstep : step s = .next (startCommand { s with agenda := rest }) := by
    rw [step_writeReg h rfl (by decide), writeRegister_ctrl, if_pos hstart]
  refine ⟨fun hb => ?_, fun hb => ?_⟩
  · rw [hstep, startCommand_busy (s := { s with agenda := rest }) hb]
  · rw [hstep, startCommand_idle (s := { s with agenda := rest }) hb]

end Sys2Proof.Machine
end

section
/-! PROOF. The instruction a step runs (O27; 10_state R31; 41_defilter R81, R82). -/

namespace Sys2Proof.Machine

/-- Settles O27: RECON runs the latched filter type, and ROW_FETCH latches the row's. -/
theorem stepRunsTheDecodedInstruction : Obligations.StepRunsTheDecodedInstruction := by
  unfold Obligations.StepRunsTheDecodedInstruction
  refine ⟨fun s i hturn hst hi => ?_, fun s g i hturn hst hg hin hcap hrow hi => ?_⟩
  · rw [step_engine hturn, engineStep_recon (s := afterTurn s) hst hi]
  · have hfetch := rowFetchStep_completes (s := afterTurn s) hg hin (by rw [afterTurn_seq, afterTurn_params]; omega) hrow
      (by rw [afterTurn_readByte]; exact hi)
    have hstep := (step_engine hturn).trans ((engineStep_rowFetch (s := afterTurn s) hst).trans hfetch)
    refine ⟨_, hstep, rfl, engineStep_recon rfl ?_⟩
    simpa using hi

end Sys2Proof.Machine
end

section
/-! PROOF. The host's accesses of the memories (20_memory R40, R42, R48, R49; O8 to O12): what each access does as a
step, what a transfer of several bytes does, and what no access changes of a finished job's results. -/

namespace Sys2Proof.Machine

/-! ## What the host port answers -/

section
variable {s : State} {m : HostMem} {addr bytes : Nat}

theorem hostStep_readMem (h : admittedMemory m addr bytes s = true) :
    hostStep (.readMem m addr bytes) s =
      .next { (readMemory m addr s).2 with hostData := (readMemory m addr s).1.setWidth 32 } :=
  if_pos h

theorem hostStep_writeMem_busy (h : admittedMemory m addr bytes s = true) (hb : busy s.reg = true) (v : Byte) :
    hostStep (.writeMem m addr bytes v) s = .refused (.hostWriteWhileBusy m addr) :=
  (if_pos h).trans (if_pos hb)

theorem hostStep_writeInp (h : admittedMemory .inp addr bytes s = true) (hb : busy s.reg = false) (v : Byte) :
    hostStep (.writeMem .inp addr bytes v) s = .next (writeByte .inp addr v s) :=
  (if_pos h).trans (if_neg (by rw [hb]; decide))

/-- RAW and PIX are read-only to the host (10_state R28). -/
theorem hostStep_writeMem_readOnly (h : admittedMemory m addr bytes s = true) (hb : busy s.reg = false) (hm : m ≠ .inp)
    (v : Byte) : hostStep (.writeMem m addr bytes v) s = .refused (.hostWriteReadOnly m addr) := by
  refine (if_pos h).trans ((if_neg (by rw [hb]; decide)).trans ?_)
  cases m with
  | inp => exact absurd rfl hm
  | raw | pix => rfl

/-- While BUSY a read of a result memory is a draw (20_memory R48). -/
theorem readMemory_busy (hb : busy s.reg = true) (hm : m ≠ .inp) (addr : Nat) : readMemory m addr s = drawByte s := by
  cases m with
  | inp => exact absurd rfl hm
  | raw | pix => exact if_pos hb

/-- One byte below the capacity is an admitted access (20_memory R40). -/
theorem admittedMemory_byte (h : addr < s.params.capacity (hostSpace m)) : admittedMemory m addr 1 s = true :=
  (admittedMemory_iff m addr 1 s).2 ⟨rfl, h⟩

/-- Any other width or address is not (20_memory R40). -/
theorem not_admittedMemory (h : ¬ (bytes = 1 ∧ addr < s.params.capacity (hostSpace m))) :
    ¬ admittedMemory m addr bytes s = true :=
  fun ha => h ((admittedMemory_iff m addr bytes s).1 ha)

end

/-- Any other width or alignment of a register access, or an offset past the window, is not admitted (20_memory R40). -/
theorem not_admittedRegister {off bytes : Nat} (h : ¬ (bytes = 4 ∧ off % 4 = 0 ∧ off ≤ 0x3C)) :
    ¬ admittedRegister off bytes = true :=
  fun ha => h ((admittedRegister_iff off bytes).1 ha)

/-- While not BUSY a write of IN stores the byte (20_memory R48). -/
theorem step_writeInp {s : State} {rest : List Turn} {addr : Nat} {v : Byte} (haddr : addr < s.params.inCap)
    (hb : busy s.reg = false) (h : s.agenda = .host (.writeMem .inp addr 1 v) :: rest) :
    step s = .next (writeByte .inp addr v { s with agenda := rest }) :=
  (step_host h).trans (hostStep_writeInp (s := { s with agenda := rest }) (admittedMemory_byte haddr) hb v)

/-! ## Unadmitted accesses -/

/-- Settles O8: every kind of access tests what it admits first. -/
theorem unadmittedHostAccessIsRefused : Obligations.UnadmittedHostAccessIsRefused := by
  unfold Obligations.UnadmittedHostAccessIsRefused
  refine fun s rest => ⟨?readReg, ?writeReg, ?readMem, ?writeMem⟩
  case readReg => exact fun off bytes h hbad => (step_host h).trans (if_neg (not_admittedRegister hbad))
  case writeReg => exact fun off bytes w h hbad => (step_host h).trans (if_neg (not_admittedRegister hbad))
  case readMem => exact fun m addr bytes h hbad => (step_host h).trans (if_neg (not_admittedMemory hbad))
  case writeMem => exact fun m addr bytes v h hbad => (step_host h).trans (if_neg (not_admittedMemory hbad))

/-! ## Accesses while BUSY and while not -/

/-- Settles O9. -/
theorem busyHostMemoryAccess : Obligations.BusyHostMemoryAccess := by
  unfold Obligations.BusyHostMemoryAccess
  intro s rest m addr hb haddr
  have hadm : admittedMemory m addr 1 { s with agenda := rest } = true := admittedMemory_byte haddr
  refine ⟨fun h => ⟨?inp, ?result⟩, fun v h => (step_host h).trans (hostStep_writeMem_busy hadm hb v)⟩
  case inp =>
    rintro rfl
    exact (step_host h).trans (hostStep_readMem hadm)
  case result =>
    intro hm
    rw [step_host h, hostStep_readMem hadm, readMemory_busy (s := { s with agenda := rest }) hb hm]
    rfl

/-- Settles O10. -/
theorem idleHostMemoryAccess : Obligations.IdleHostMemoryAccess := by
  unfold Obligations.IdleHostMemoryAccess
  intro s rest m addr hb haddr
  have hadm : admittedMemory m addr 1 { s with agenda := rest } = true := admittedMemory_byte haddr
  refine ⟨?read, ?writeInp, fun v hm h => (step_host h).trans (hostStep_writeMem_readOnly hadm hb hm v)⟩
  case read =>
    intro h
    rw [step_host h, hostStep_readMem hadm, readMemory_idle (s := { s with agenda := rest }) hb, readByte_withAgenda]
  case writeInp =>
    rintro v h rfl
    refine ⟨_, step_writeInp haddr hb h, rfl, readByte_writeByte_same .inp addr v _, fun a ha => ?_⟩
    rw [readByte_writeByte_address ha, readByte_withAgenda]

/-! ## A transfer of several bytes -/

/-- A transfer's single-byte writes run to the end and store its bytes in order (20_memory R40). -/
theorem run_transferIn {rest : List Turn} (bs : List Byte) : ∀ {s : State} {addr : Nat},
    s.agenda = transferIn addr bs ++ rest → busy s.reg = false → addr + bs.length ≤ s.params.inCap →
    Host.Core.run Sys2Proof.core bs.length s = .next (writeBytes .inp addr bs { s with agenda := rest }) := by
  induction bs with
  | nil =>
    intro s addr h _ _
    have hrest : s.agenda = rest := h
    subst hrest
    rfl
  | cons b bs ih =>
    intro s addr h hb hcap
    rw [List.length_cons] at hcap ⊢
    have hfirst : step s = .next (writeByte .inp addr b { s with agenda := transferIn (addr + 1) bs ++ rest }) :=
      step_writeInp (by omega) hb h
    have hcap' : addr + 1 + bs.length ≤ s.params.inCap := by omega
    exact (run_next hfirst _).trans (ih rfl hb hcap')

/-- Settles O11: the writes of the transfer store its bytes at once. -/
theorem hostTransferStoresItsBytes : Obligations.HostTransferStoresItsBytes := by
  unfold Obligations.HostTransferStoresItsBytes
  intro s rest addr bs h hb hcap
  refine ⟨_, run_transferIn bs h hb hcap, rfl, fun k hk => ?_, fun a ha => ?_⟩
  · rw [readByte_writeBytes, if_pos (by omega), Nat.add_sub_cancel_left]
  · rw [readByte_writeBytes, if_neg (by omega), readByte_withAgenda]

/-! ## The results of a finished job -/

/-- What a halted job leaves to the host: where the engine stands, the status and error fields, RAW and PIX
(20_memory R49). -/
structure SameResults (s t : State) : Prop where
  seq : t.seq = s.seq
  phase : t.reg.phase = s.reg.phase
  errCode : t.reg.errCode = s.reg.errCode
  errRow : t.reg.errRow = s.reg.errRow
  errValue : t.reg.errValue = s.reg.errValue
  raw : t.raw = s.raw
  pix : t.pix = s.pix

/-- No register write but a START touches the results. -/
theorem writeRegister_sameResults {off : Nat} {w : Word} (h : off = 0x00 → w.getLsbD 0 = false) (s : State) :
    SameResults s (writeRegister off w s) := by
  rcases writeRegister_cases off w s with heq | ⟨hoff, hw, -, -⟩ | ⟨-, r, heq, hphase, hcode, hrow, hvalue⟩
  · rw [heq]; exact ⟨rfl, rfl, rfl, rfl, rfl, rfl, rfl⟩
  · rw [h hoff] at hw; cases hw
  · rw [heq]; exact ⟨rfl, hphase, hcode, hrow, hvalue, rfl, rfl⟩

/-- No access of the outside but a START or a reset touches the results (20_memory R49). -/
theorem hostStep_sameResults {a : HostAccess} {s t : State} (hstart : ∀ w, a = .writeReg 0x00 4 w → w.getLsbD 0 = false)
    (hreset : a ≠ .reset) (ht : hostStep a s = .next t) : SameResults s t := by
  rcases hostStep_next ht with ⟨off, bytes, -, -, rfl⟩ | ⟨off, bytes, w, rfl, hadm, rfl⟩ | ⟨m, addr, bytes, -, -, rfl⟩ |
    ⟨addr, bytes, v, -, -, -, rfl⟩ | ⟨rfl, -⟩
  · exact ⟨rfl, rfl, rfl, rfl, rfl, rfl, rfl⟩
  · obtain ⟨rfl, -, -⟩ := (admittedRegister_iff off bytes).1 hadm
    refine writeRegister_sameResults (fun hoff => hstart w ?_) s
    rw [hoff]
  · obtain ⟨d, hd⟩ := readMemory_state m addr s
    rw [hd]
    exact ⟨rfl, rfl, rfl, rfl, rfl, rfl, rfl⟩
  · exact ⟨rfl, rfl, rfl, rfl, rfl, rfl, rfl⟩
  · exact absurd rfl hreset

/-- While not BUSY an answered read has returned the addressed byte (20_memory R48). -/
theorem hostData_of_readMem_idle {m : HostMem} {addr bytes : Nat} {s t : State} (hb : busy s.reg = false)
    (ht : hostStep (.readMem m addr bytes) s = .next t) : t.hostData = (readByte (hostSpace m) addr s).setWidth 32 := by
  rw [hostStep, readMemory_idle hb] at ht
  split at ht
  · cases ht; rfl
  · cases ht

/-- A job in DONE or ERROR is not BUSY (10_state R17). -/
theorem not_busy_of_ended {r : Regs} (h : r.phase = .done ∨ r.phase = .error) : busy r = false := by
  rcases h with h | h <;> simp only [busy, h]

/-- Settles O12: a halted engine changes nothing, and of the outside's accesses only a START or a reset touches the
results. -/
theorem resultsStayUntilStartOrReset : Obligations.ResultsStayUntilStartOrReset := by
  unfold Obligations.ResultsStayUntilStartOrReset
  intro s t hended hhalt hstart hreset ht
  rcases step_cases s with ⟨hturn, heq⟩ | ⟨a, rest, hagenda, heq⟩
  · have hidle : ∀ a, s.agenda.head? ≠ some (.host a) := by
      intro a ha
      obtain ⟨rest, hagenda⟩ := List.head?_eq_some_iff.1 ha
      rw [engineTurn, hagenda] at hturn
      cases hturn
    rw [heq, engineStep_halt (s := afterTurn s) hhalt] at ht
    cases ht
    exact ⟨rfl, rfl, rfl, rfl, rfl, rfl, rfl, fun _ _ h => absurd h (hidle _), fun _ _ h => absurd h (hidle _)⟩
  · rw [heq] at ht
    have hhead : s.agenda.head? = some (.host a) := by rw [hagenda]; rfl
    rw [hhead] at hstart hreset ⊢
    obtain ⟨hseq, hphase, hcode, hrow, hvalue, hraw, hpix⟩ :=
      hostStep_sameResults (fun w hw => hstart w (by rw [hw])) (fun hr => hreset (by rw [hr])) ht
    have hread : ∀ m addr bytes, some (Turn.host a) = some (.host (.readMem m addr bytes)) →
        t.hostData = (readByte (hostSpace m) addr s).setWidth 32 := by
      intro m addr bytes ha
      cases ha
      rw [hostData_of_readMem_idle (s := { s with agenda := rest }) (not_busy_of_ended hended) ht, readByte_withAgenda]
    exact ⟨hseq, hphase, hcode, hrow, hvalue, hraw, hpix, hread .raw, hread .pix⟩

end Sys2Proof.Machine
end

section
/-! PROOF. What the engine leaves to the host, and what it reads of IN (20_memory R38; 10_state R31, R32; O47, O48). For
O48 the second state is the first with another IN, `setMem .inp m s`: every stage but ROW_FETCH does the same thing
there whatever m is, and ROW_FETCH does when m agrees below IN_LEN. -/

namespace Sys2Proof.Machine

/-! ## What no engine step writes -/

/-- The state with all that an engine step may write blanked: left are IN, the parameters, the configuration, and what
belongs to the host and the outside. -/
def hostSide (s : State) : State :=
  { s with
    reg := { s.reg with phase := .idle, errCode := .none, errRow := 0, errValue := 0 }
    seq := Sequencer.reset, raw := [], pix := [], cur := [], prev := [], draws := 0 }

theorem advanceCommit_hostSide (height : Nat) (s : State) : hostSide (advanceCommit height s) = hostSide s := by
  rw [advanceCommit_eq]; rfl

theorem advancePixel_hostSide (g : Geometry) (s : State) : hostSide (advancePixel g s) = hostSide s := by
  rw [advancePixel_eq]; rfl

theorem samples_hostSide (g : Geometry) (o : Nat) (s : State) : hostSide (samples g o s).2 = hostSide s := by
  obtain ⟨d, hd⟩ := samples_state g o s
  rw [hd]; rfl

theorem writeBytes_hostSide {sp : Space} (h : sp ≠ .inp) (a : Nat) (bs : List Byte) (s : State) :
    hostSide (writeBytes sp a bs s) = hostSide s := by
  cases sp with
  | inp => exact absurd rfl h
  | raw | pix | cur | prev => rfl

/-- An engine step leaves the host's side alone, whatever its stage. -/
theorem engineStep_hostSide {s t : State} (h : engineStep s = .next t) : hostSide t = hostSide s := by
  rcases engineStep_cases h with ⟨-, rfl⟩ | ⟨-, h⟩ | ⟨-, h⟩ | ⟨-, i, -, h⟩ | ⟨-, h⟩ | ⟨-, h⟩ | ⟨-, h⟩
  · rfl
  · rcases checkStep_next h with ⟨e, -, rfl⟩ | ⟨g, -, rfl⟩ <;> rfl
  · obtain ⟨g, -, ⟨-, rfl⟩ | ⟨-, -, ⟨v, -, rfl⟩ | ⟨i, -, -, rfl⟩⟩⟩ := rowFetchStep_next h <;> rfl
  · obtain ⟨g, -, -, rfl⟩ := exec_next h; rfl
  · obtain ⟨g, -, -, -, rfl⟩ := commitStep_next h
    rw [advanceCommit_hostSide, writeBytes_hostSide (by decide), writeBytes_hostSide (by decide)]
  · obtain ⟨g, -, ⟨-, rfl⟩ | ⟨-, rfl⟩⟩ := asmCheckStep_next h <;> rfl
  · obtain ⟨g, -, -, -, rfl⟩ := pixelStep_next h
    rw [advancePixel_hostSide, writeBytes_hostSide (by decide), samples_hostSide]

/-- Settles O47: each of the fields is one of the host's side. -/
theorem engineKeepsInputAndConfiguration : Obligations.EngineKeepsInputAndConfiguration := by
  unfold Obligations.EngineKeepsInputAndConfiguration
  intro s t h
  have hside := engineStep_hostSide h
  simp only [hostSide, State.mk.injEq, Regs.mk.injEq] at hside
  simp only [hside, and_self]

/-! ## What the engine reads of IN -/

theorem readBytes_congr {sp : Space} {a n : Nat} {s t : State}
    (h : ∀ k, k < n → readByte sp (a + k) t = readByte sp (a + k) s) : readBytes sp a n t = readBytes sp a n s := by
  rw [readBytes_eq_map, readBytes_eq_map]
  exact List.map_congr_left fun k hk => h k (List.mem_range.1 hk)

/-- A row's stride is its filter type and its data (40_resolver R75, R76). -/
theorem rowStride_eq (g : Geometry) : rowStride g = 1 + scanLength g := by
  simp only [scanLength, rowStride]
  omega

section
variable (m : Memory) {s t : State}

theorem rawByte_setInp (g : Geometry) (k : Nat) (s : State) :
    rawByte g k (setMem .inp m s) = ((rawByte g k s).1, setMem .inp m (rawByte g k s).2) := by
  unfold rawByte
  split <;> rfl

theorem samples_setInp (g : Geometry) (o : Nat) (s : State) :
    samples g o (setMem .inp m s) = ((samples g o s).1, setMem .inp m (samples g o s).2) := by
  simp only [samples, rawByte_setInp]

theorem advanceCommit_setInp (height : Nat) (s : State) :
    advanceCommit height (setMem .inp m s) = setMem .inp m (advanceCommit height s) := by
  rw [advanceCommit_eq, advanceCommit_eq]; rfl

theorem advancePixel_setInp (g : Geometry) (s : State) :
    advancePixel g (setMem .inp m s) = setMem .inp m (advancePixel g s) := by
  rw [advancePixel_eq, advancePixel_eq]; rfl

theorem checkStep_setInp (h : checkStep s = .next t) : checkStep (setMem .inp m s) = .next (setMem .inp m t) := by
  have hchecks : startChecks (setMem .inp m s) = startChecks s := startChecks_congr rfl rfl rfl rfl rfl rfl
  rcases checkStep_next h with ⟨e, he, rfl⟩ | ⟨g, hok, rfl⟩
  · simp only [checkStep, hchecks, he]; rfl
  · simp only [checkStep, hchecks, hok]; rfl

theorem exec_setInp {ft : Instr} (h : exec ft s = .next t) : exec ft (setMem .inp m s) = .next (setMem .inp m t) := by
  obtain ⟨g, hg, hi, rfl⟩ := exec_next h
  exact exec_completes (s := setMem .inp m s) hg hi ft

theorem commitStep_setInp (h : commitStep s = .next t) : commitStep (setMem .inp m s) = .next (setMem .inp m t) := by
  obtain ⟨g, hg, hrow, hraw, rfl⟩ := commitStep_next h
  have hcur : readBytes .cur 0 (scanLength g) (setMem .inp m s) = readBytes .cur 0 (scanLength g) s :=
    readBytes_congr fun _ _ => rfl
  rw [commitStep_completes (s := setMem .inp m s) hg hrow hraw, hcur, ← advanceCommit_setInp]
  rfl

theorem asmCheckStep_setInp (h : asmCheckStep s = .next t) :
    asmCheckStep (setMem .inp m s) = .next (setMem .inp m t) := by
  obtain ⟨g, hg, ⟨hfits, rfl⟩ | ⟨hfits, rfl⟩⟩ := asmCheckStep_next h
  · rw [asmCheckStep_completes (s := setMem .inp m s) hg, setMem_params, if_pos hfits]; rfl
  · rw [asmCheckStep_completes (s := setMem .inp m s) hg, setMem_params, if_neg (by rw [hfits]; decide)]; rfl

theorem pixelStep_setInp (h : pixelStep s = .next t) : pixelStep (setMem .inp m s) = .next (setMem .inp m t) := by
  obtain ⟨g, hg, hraw, hpix, rfl⟩ := pixelStep_next h
  rw [pixelStep_completes (s := setMem .inp m s) hg hraw hpix, samples_setInp, ← advancePixel_setInp]
  rfl

variable {m} (hm : ∀ a, a < s.reg.inLen.toNat → readByte .inp a (setMem .inp m s) = readByte .inp a s)
include hm

/-- ROW_FETCH reads IN only after the range check of 41_defilter R80, which puts the scanline below IN_LEN. -/
theorem rowFetchStep_setInp (h : rowFetchStep s = .next t) :
    rowFetchStep (setMem .inp m s) = .next (setMem .inp m t) := by
  obtain ⟨g, hg, hcases⟩ := rowFetchStep_next h
  have hstride := rowStride_eq g
  rcases hcases with ⟨hshort, rfl⟩ | ⟨hin, hcap, hfetch⟩
  · exact rowFetchStep_short (s := setMem .inp m s) hg hshort
  · have hft : readByte .inp (s.seq.y * rowStride g) (setMem .inp m s) = readByte .inp (s.seq.y * rowStride g) s :=
      hm _ (by omega)
    have hdata : readBytes .inp (s.seq.y * rowStride g + 1) (scanLength g) (setMem .inp m s) =
        readBytes .inp (s.seq.y * rowStride g + 1) (scanLength g) s :=
      readBytes_congr fun k hk => hm _ (by omega)
    rcases hfetch with ⟨v, hv, rfl⟩ | ⟨i, hi, hrow, rfl⟩
    · exact rowFetchStep_badFilter (s := setMem .inp m s) hg hin hcap (by rw [setMem_seq, hft]; exact hv)
    · rw [rowFetchStep_completes (s := setMem .inp m s) (i := i) hg hin hcap hrow (by rw [setMem_seq, hft]; exact hi),
        setMem_seq, hft, hdata]
      rfl

/-- An engine step takes no notice of what IN holds from IN_LEN up (20_memory R38). -/
theorem engineStep_setInp (h : engineStep s = .next t) : engineStep (setMem .inp m s) = .next (setMem .inp m t) := by
  rcases engineStep_cases h with ⟨hst, rfl⟩ | ⟨hst, h⟩ | ⟨hst, h⟩ | ⟨hst, i, hi, h⟩ | ⟨hst, h⟩ | ⟨hst, h⟩ | ⟨hst, h⟩
  · exact engineStep_halt (s := setMem .inp m t) hst
  · exact (engineStep_check (s := setMem .inp m s) hst).trans (checkStep_setInp m h)
  · exact (engineStep_rowFetch (s := setMem .inp m s) hst).trans (rowFetchStep_setInp hm h)
  · exact (engineStep_recon (s := setMem .inp m s) hst hi).trans (exec_setInp m h)
  · exact (engineStep_commit (s := setMem .inp m s) hst).trans (commitStep_setInp m h)
  · exact (engineStep_asmCheck (s := setMem .inp m s) hst).trans (asmCheckStep_setInp m h)
  · exact (engineStep_pixel (s := setMem .inp m s) hst).trans (pixelStep_setInp m h)

end

/-- Settles O48: the second state is the first with another IN, and IN stays what it was in both. -/
theorem engineReadsInputBelowInLen : Obligations.EngineReadsInputBelowInLen := by
  unfold Obligations.EngineReadsInputBelowInLen
  rintro s s' t ⟨hsame, hread⟩ h
  have hset : s' = setMem .inp s'.inp s := hsame
  obtain ⟨hinp, -, -, -, -, -, -, hepoch, -, -⟩ := engineKeepsInputAndConfiguration s t h
  refine ⟨setMem .inp s'.inp t, ?_, rfl, fun a ha => ?_⟩
  · rw [hset]
    exact engineStep_setInp (fun a ha => by rw [← hset]; exact hread a ha) h
  · have hepoch' : t.epoch = s'.epoch := by rw [hset]; exact hepoch
    calc readByte .inp a (setMem .inp s'.inp t)
      _ = readByte .inp a s' := readByte_congr rfl hepoch'
      _ = readByte .inp a s := hread a ha
      _ = readByte .inp a t := (readByte_congr (sp := .inp) hinp hepoch).symm

end Sys2Proof.Machine
end

section
/-! PROOF. The encoding (30_encoding R56, R57, R59, R69 to R71; O13 to O17): the filter byte's table, one scanline, a
stream of scanlines, and the bytes a listing assembles to. -/

namespace Sys2Proof.Machine

/-! ## The filter byte -/

theorem opcodeByte_statement : ∀ i : Instr, Laws.OpcodeByte.Statement i
  | .none => Laws.OpcodeByte.none
  | .sub => Laws.OpcodeByte.sub
  | .up => Laws.OpcodeByte.up
  | .avg => Laws.OpcodeByte.avg
  | .paeth => Laws.OpcodeByte.paeth

@[simp] theorem decodeFilter_encodeFilter (i : Instr) : decodeFilter (encodeFilter i) = .instr i := by
  obtain ⟨-, hdec, -⟩ := opcodeByte_statement i
  exact hdec

theorem eq_encodeFilter_of_decodeFilter {v : Byte} {i : Instr} (h : decodeFilter v = .instr i) : v = encodeFilter i := by
  obtain ⟨-, -, honly, -⟩ := opcodeByte_statement i
  exact honly v h

/-- Settles O13: the five codes are computed; any other byte is 5 or more. -/
theorem filterByteDecodesByTheTable : Obligations.FilterByteDecodesByTheTable := by
  unfold Obligations.FilterByteDecodesByTheTable
  intro v
  split_ifs with h0 h1 h2 h3 h4
  · subst h0; rfl
  · subst h1; rfl
  · subst h2; rfl
  · subst h3; rfl
  · subst h4; rfl
  · rcases decodeFilter_cases v with ⟨hlt, -⟩ | ⟨-, hbad⟩
    · exact absurd hlt (by bv_omega)
    · exact hbad

/-! ## One scanline -/

/-- Only the number of data bytes can be wrong in a scanline (30_encoding R58, R62). -/
theorem scanline_wf_iff (len : Nat) (sc : Scanline) : sc.wf len = true ↔ sc.data.length = len := by
  obtain ⟨hinstr, -⟩ := opcodeByte_statement sc.instr
  simp [Scanline.wf, hinstr]

theorem decodeScanline_encode {len : Nat} {sc : Scanline} (h : sc.wf len = true) (rest : List Byte) :
    decodeScanline len (encode sc ++ rest) = .row sc rest := by
  obtain rfl := (scanline_wf_iff len sc).1 h
  simp [encode, decodeScanline]

/-- When a stream decodes to a scanline, its first byte is the filter type and the scan length of bytes follows. -/
theorem decodeScanline_row {len : Nat} {bytes rest : List Byte} {sc : Scanline}
    (h : decodeScanline len bytes = .row sc rest) :
    ∃ ft tail, bytes = ft :: tail ∧ len ≤ tail.length ∧ decodeFilter ft = .instr sc.instr ∧ sc.data = tail.take len ∧
      rest = tail.drop len := by
  unfold decodeScanline at h
  split at h
  · cases h
  · next ft tail =>
    split at h
    · cases h
    · next hlen =>
      split at h
      · next i hi => cases h; exact ⟨ft, tail, rfl, by omega, hi, rfl, rfl⟩
      · cases h

/-- Settles O14, by evaluation of the decoder on the six fixed scanlines. -/
theorem specScanlinesDecode : Obligations.SpecScanlinesDecode := by
  unfold Obligations.SpecScanlinesDecode
  decide

/-- Settles O16: the filter byte is the instruction's own, and the data and the rest are the bytes after it. -/
theorem decodedScanlineHasOneEncoding : Obligations.DecodedScanlineHasOneEncoding := by
  unfold Obligations.DecodedScanlineHasOneEncoding
  intro len bytes rest sc h
  obtain ⟨ft, tail, rfl, hlen, hft, hdata, rfl⟩ := decodeScanline_row h
  constructor
  · simp [encode, hdata, eq_encodeFilter_of_decodeFilter hft]
  · rw [scanline_wf_iff, hdata, List.length_take_of_le hlen]

/-! ## A stream of scanlines -/

/-- Settles O15, by induction on the scanlines: each is decoded and leaves the bytes of the others. -/
theorem scanlineStreamRoundTrip : Obligations.ScanlineStreamRoundTrip := by
  unfold Obligations.ScanlineStreamRoundTrip
  intro len rows trailing h
  induction rows with
  | nil => rfl
  | cons sc rows ih =>
    obtain ⟨hsc, hrows⟩ := List.forall_mem_cons.1 h
    rw [encodeRows, List.append_assoc, List.length_cons, decodeRows, decodeScanline_encode hsc]
    simp [ih hrows]

/-! ## The bytes of a listing -/

theorem encodeRows_eq_flatMap (rows : List Scanline) : encodeRows rows = rows.flatMap encode := by
  induction rows with
  | nil => rfl
  | cons sc rows ih => rw [encodeRows, ih, List.flatMap_cons]

section
variable (rows : List Scanline) (pads : List (List Byte))

theorem scanlineBytes_rows : (rows.map ListingLine.row).flatMap scanlineBytes = encodeRows rows := by
  rw [List.flatMap_map, encodeRows_eq_flatMap]; rfl

theorem scanlineBytes_fts :
    (rows.map fun sc => ListingLine.ft (encodeFilter sc.instr) sc.data).flatMap scanlineBytes = encodeRows rows := by
  rw [List.flatMap_map, encodeRows_eq_flatMap]; rfl

theorem scanlineBytes_pads : (pads.map ListingLine.pad).flatMap scanlineBytes = [] := by
  simp [List.flatMap_map, scanlineBytes, List.flatMap_eq_nil_iff]

theorem padBytes_rows : (rows.map ListingLine.row).flatMap padBytes = [] := by
  simp [List.flatMap_map, padBytes, List.flatMap_eq_nil_iff]

theorem padBytes_fts : (rows.map fun sc => ListingLine.ft (encodeFilter sc.instr) sc.data).flatMap padBytes = [] := by
  simp [List.flatMap_map, padBytes, List.flatMap_eq_nil_iff]

theorem padBytes_pads : (pads.map ListingLine.pad).flatMap padBytes = pads.flatten := by
  simp [List.flatMap_map, padBytes]

/-- Scanlines by mnemonic, pads after: the stream, then the pad bytes (30_encoding R69). -/
theorem assembleListing_rows_pads (im : ImageLine) :
    assembleListing { image := im, lines := rows.map .row ++ pads.map .pad } = encodeRows rows ++ pads.flatten := by
  simp only [assembleListing, List.flatMap_append, scanlineBytes_rows, scanlineBytes_pads, padBytes_rows, padBytes_pads,
    List.append_nil, List.nil_append]

/-- Scanlines by filter byte, pads before: the stream, then the pad bytes (30_encoding R69, R70). -/
theorem assembleListing_pads_fts (im : ImageLine) :
    assembleListing
        { image := im, lines := pads.map .pad ++ rows.map (fun sc => .ft (encodeFilter sc.instr) sc.data) } =
      encodeRows rows ++ pads.flatten := by
  simp only [assembleListing, List.flatMap_append, scanlineBytes_fts, scanlineBytes_pads, padBytes_fts, padBytes_pads,
    List.append_nil, List.nil_append]

end

/-- Settles O17: both listings assemble to the scanlines' stream followed by the pad bytes. -/
theorem listingAssemblesToItsScanlines : Obligations.ListingAssemblesToItsScanlines := by
  unfold Obligations.ListingAssemblesToItsScanlines
  intro im len rows pads h
  rw [assembleListing_rows_pads, assembleListing_pads_fts]
  exact ⟨rfl, scanlineStreamRoundTrip len rows pads.flatten h⟩

end Sys2Proof.Machine
end

section
/-! PROOF. Lanes (30_encoding R64; 41_defilter R95; O39): every operand of a byte lies in the byte's own lane. -/

namespace Sys2Proof.Machine

/-- Two rows agree at the indices of a lane below n (30_encoding R64). -/
def agreeOnLane (bpp lane n : Nat) (row row' : List Byte) : Prop :=
  ∀ i, i < n → i % bpp = lane → row.getD i 0 = row'.getD i 0

section
variable {bpp lane n : Nat}

/-- The left neighbour lies in the byte's own lane. -/
theorem leftOf_of_agreeOnLane {row row' : List Byte} (h : agreeOnLane bpp lane n row row') {k : Nat} (hk : k < n)
    (hlane : k % bpp = lane) : leftOf bpp row k = leftOf bpp row' k := by
  unfold leftOf
  split
  · next hle => exact h (k - bpp) (by omega) ((Nat.mod_eq_sub_mod hle).symm.trans hlane)
  · rfl

/-- After every number of reconstructed bytes the rows agree on the lane, if the filtered and the previous ones do. -/
theorem agreeOnLane_reconBytes (aw : AvgSumWidth) (ft : Instr) {prev prev' cur cur' : List Byte}
    (hlen : cur.length = cur'.length) (hprev : agreeOnLane bpp lane cur.length prev prev')
    (hcur : agreeOnLane bpp lane cur.length cur cur') (k : Nat) :
    agreeOnLane bpp lane cur.length (reconBytes aw ft bpp prev k cur) (reconBytes aw ft bpp prev' k cur') := by
  induction k with
  | zero => exact hcur
  | succ k ih =>
    intro i hi hlane
    rcases Nat.lt_trichotomy i k with hlt | rfl | hgt
    · rw [reconBytes_below _ _ _ _ _ hlt, reconBytes_below _ _ _ _ _ hlt]
      exact ih i hi hlane
    · rw [reconBytes_at _ _ _ _ _ hi, reconBytes_at _ _ _ _ _ (hlen ▸ hi), hcur i hi hlane, hprev i hi hlane,
        leftOf_of_agreeOnLane ih hi hlane, leftOf_of_agreeOnLane hprev hi hlane]
    · rw [reconBytes_from _ _ _ _ _ _ _ hgt, reconBytes_from _ _ _ _ _ _ _ hgt]
      exact hcur i hi hlane

end

/-- Settles O39, by induction on the reconstructed bytes. -/
theorem lanesAreIndependent : Obligations.LanesAreIndependent := by
  unfold Obligations.LanesAreIndependent
  intro aw ft bpp lane prev prev' cur cur' _ hlen h
  have hcur : agreeOnLane bpp lane cur.length cur cur' := fun i hi hlane => (h i hi hlane).1
  have hprev : agreeOnLane bpp lane cur.length prev prev' := fun i hi hlane => (h i hi hlane).2
  rw [reconRow, reconRow, ← hlen]
  exact agreeOnLane_reconBytes aw ft hlen hprev hcur cur.length

end Sys2Proof.Machine
end

section
/-! PROOF. The image of a completed job (30_encoding R68; 42_assembler R102, R104, R107; O60): the row loop writes RAW
from address 0 on without a gap, and under RangeError the pixel loops read only those bytes. -/

namespace Sys2Proof.Machine

/-! ## A job that ends in DONE -/

/-- A job ends in DONE only when every row is good and the image fits; then its RAW is the defilter stage's and its PIX
is the assembler's (42_assembler R104). -/
theorem jobFunction_done {s : State} {g : Geometry} (hok : startChecks s = .ok g) (hdone : (jobFunction s).phase = .done) :
    (defilterStage g s).error = none ∧ assemblerFits s.params.asmOobPolicy g = true ∧
      (jobFunction s).raw = (defilterStage g s).raw ∧
      (jobFunction s).pix = (assembleRows g (fun k => readByte .raw k (setMem .raw (defilterStage g s).raw s)) g.height 0
        (s.pix, s.draws)).1 := by
  cases hd : (defilterStage g s).error with
  | some e => simp [jobFunction, hok, hd] at hdone
  | none =>
    by_cases hfits : assemblerFits s.params.asmOobPolicy g = true
    · simp [jobFunction, hok, hd, hfits]
    · simp [jobFunction, hok, hd, hfits] at hdone

/-! ## RAW has no gap -/

/-- Every address of a memory below n is written. -/
def writtenBelow (n : Nat) (m : Memory) : Prop :=
  ∀ a, a < n → ∃ b, Memory.find m a = some b

/-- Bytes written from the end of the written addresses leave no gap. -/
theorem writtenBelow_writeList {n : Nat} {m : Memory} (h : writtenBelow n m) (bs : List Byte) :
    writtenBelow (n + bs.length) (Memory.writeList m n bs) := by
  intro a ha
  rw [find_writeList]
  split
  · exact ⟨_, List.getElem?_eq_getElem (by omega)⟩
  · exact h a (by omega)

theorem writtenBelow_writeRow {y len : Nat} {m : Memory} (h : writtenBelow (y * len) m) {row : List Byte}
    (hlen : row.length = len) : writtenBelow ((y + 1) * len) (Memory.writeList m (y * len) row) := by
  rw [Nat.succ_mul]
  simpa only [hlen] using writtenBelow_writeList h row

/-- A row loop that ends without an error has written every row (41_defilter R85, R86). -/
theorem writtenBelow_defilterRows {aw : AvgSumWidth} {g : Geometry} {inp : Nat → Byte} {inLen : Nat} (rows : Nat) :
    ∀ {y : Nat} {prev : List Byte} {raw : Memory}, writtenBelow (y * scanLength g) raw →
      (defilterRows aw g inp inLen rows y prev raw).error = none →
      writtenBelow ((y + rows) * scanLength g) (defilterRows aw g inp inLen rows y prev raw).raw := by
  induction rows with
  | zero => intro y prev raw h _; exact h
  | succ rows ih =>
    intro y prev raw h herr
    rw [defilterRows] at herr ⊢
    split at herr
    · cases herr
    · next hin =>
      rw [if_neg hin]
      split at herr
      · cases herr
      · next ft _ =>
        rw [show y + (rows + 1) = y + 1 + rows by omega]
        exact ih (writtenBelow_writeRow h (by simp)) herr

/-- A defilter stage that ends without an error has written the whole raw stream (20_memory R39). -/
theorem writtenBelow_defilterStage {s : State} {g : Geometry} (herr : (defilterStage g s).error = none) :
    writtenBelow (rawLength g) (defilterStage g s).raw := by
  have h := writtenBelow_defilterRows g.height (y := 0) (fun a ha => by simp at ha) herr
  rwa [Nat.zero_add] at h

/-- A written byte is what its store reads back as. -/
theorem find_eq_readByte {sp : Space} {m : Memory} {a : Nat} (s : State) (h : ∃ b, Memory.find m a = some b) :
    Memory.find m a = some (readByte sp a (setMem sp m s)) := by
  obtain ⟨b, hb⟩ := h
  simp [readByte, hb]

/-! ## The pixels -/

/-- The pixels of a row are among the image's. -/
theorem rowPixels_le {g : Geometry} {y : Nat} (hy : y < g.height) : y * g.width + g.width ≤ pixelCount g := by
  rw [← Nat.succ_mul, pixelCount, Nat.mul_comm g.width]
  exact Nat.mul_le_mul_right _ hy

/-- The three samples of every pixel lie inside the raw stream. -/
def samplesInStream (g : Geometry) : Prop :=
  ∀ p, p < pixelCount g → bytesPerPixel g * p + 2 < rawLength g

/-- Under RangeError ASM_CHECK passes only an image whose samples all lie inside the stream (42_assembler R101, R103). -/
theorem samplesInStream_of_fits {g : Geometry} (h : assemblerFits .rangeError g = true) : samplesInStream g := by
  intro p hp
  have hlast : (bytesPerPixel g : Int) * (pixelCount g - 1) + 3 ≤ rawLength g := by
    simp only [assemblerFits, Bool.and_eq_true, Bool.not_eq_true', decide_eq_false_iff_not, not_lt] at h
    exact h.2
  have hmono : (bytesPerPixel g : Int) * p ≤ bytesPerPixel g * (pixelCount g - 1) :=
    mul_le_mul_of_nonneg_left (by omega) (by omega)
  zify
  omega

/-- The four bytes of pixel number p: three raw bytes from BPP·p up and alpha 255 (30_encoding R68). -/
def pixelOf (g : Geometry) (raw : Nat → Byte) (p : Nat) : List Byte :=
  [raw (bytesPerPixel g * p), raw (bytesPerPixel g * p + 1), raw (bytesPerPixel g * p + 2), 255]

/-- Samples inside the stream are raw bytes. -/
theorem pixelBytes_inStream {g : Geometry} (raw : Nat → Byte) {p : Nat} (h : bytesPerPixel g * p + 2 < rawLength g)
    (draws : Nat) : (pixelBytes g raw (bytesPerPixel g * p) draws).1 = pixelOf g raw p := by
  have h0 : bytesPerPixel g * p < rawLength g := by omega
  have h1 : bytesPerPixel g * p + 1 < rawLength g := by omega
  simp [pixelBytes, sample, pixelOf, h, h0, h1]

/-- PIX holds the first n pixels of the image. -/
def holdsPixels (g : Geometry) (raw : Nat → Byte) (n : Nat) (pix : Memory) : Prop :=
  ∀ p, p < n → ∀ k, k < 4 → Memory.find pix (4 * p + k) = (pixelOf g raw p)[k]?

section
variable {g : Geometry} {raw : Nat → Byte} (hin : samplesInStream g)
include hin

/-- One pass of the column loop adds a pixel. -/
theorem holdsPixels_assemblePixel {y x : Nat} {acc : Memory × Nat} (h : holdsPixels g raw (y * g.width + x) acc.1)
    (hlt : y * g.width + x < pixelCount g) :
    holdsPixels g raw (y * g.width + x + 1) (assemblePixel g raw y x acc).1 := by
  intro p hp k hk
  simp only [assemblePixel, Nat.mul_comm g.width y, pixelBytes_inStream raw (hin _ hlt)]
  rw [find_writeList]
  rcases Nat.lt_succ_iff_lt_or_eq.1 hp with hbefore | rfl
  · rw [if_neg (by omega)]
    exact h p hbefore k hk
  · rw [if_pos (by simp only [pixelOf, List.length_cons, List.length_nil]; omega), Nat.add_sub_cancel_left]

/-- The column loop adds a row's remaining pixels. -/
theorem holdsPixels_assembleColumns {y : Nat} (cols : Nat) :
    ∀ {x : Nat} {acc : Memory × Nat}, holdsPixels g raw (y * g.width + x) acc.1 →
      y * g.width + x + cols ≤ pixelCount g →
      holdsPixels g raw (y * g.width + x + cols) (assembleColumns g raw y cols x acc).1 := by
  induction cols with
  | zero => intro x acc h _; exact h
  | succ cols ih =>
    intro x acc h hle
    rw [assembleColumns_succ, show y * g.width + x + (cols + 1) = y * g.width + (x + 1) + cols by omega]
    exact ih (holdsPixels_assemblePixel hin h (by omega)) (by omega)

/-- The row loop adds the remaining rows' pixels. -/
theorem holdsPixels_assembleRows (rows : Nat) :
    ∀ {y : Nat} {acc : Memory × Nat}, holdsPixels g raw (y * g.width) acc.1 → y + rows ≤ g.height →
      holdsPixels g raw ((y + rows) * g.width) (assembleRows g raw rows y acc).1 := by
  induction rows with
  | zero => intro y acc h _; exact h
  | succ rows ih =>
    intro y acc h hle
    rw [assembleRows, show y + (rows + 1) = y + 1 + rows by omega]
    refine ih ?_ (by omega)
    rw [Nat.succ_mul]
    exact holdsPixels_assembleColumns hin g.width (x := 0) h (rowPixels_le (by omega))

end

/-- A completed job under RangeError leaves the whole image in PIX. -/
theorem jobFunction_holdsPixels {s : State} {g : Geometry} (hok : startChecks s = .ok g)
    (hpolicy : s.params.asmOobPolicy = .rangeError) (hdone : (jobFunction s).phase = .done) :
    samplesInStream g ∧ holdsPixels g (fun k => readByte .raw k (setMem .raw (jobFunction s).raw s)) (pixelCount g)
      (jobFunction s).pix := by
  obtain ⟨-, hfits, hraw, hpix⟩ := jobFunction_done hok hdone
  have hin := samplesInStream_of_fits (hpolicy ▸ hfits)
  refine ⟨hin, ?_⟩
  rw [hpix, hraw, pixelCount, Nat.mul_comm]
  have h := holdsPixels_assembleRows hin (raw := fun k => readByte .raw k (setMem .raw (defilterStage g s).raw s))
    g.height (y := 0) (acc := (s.pix, s.draws)) (fun p hp => by simp at hp) (by omega)
  rwa [Nat.zero_add] at h

/-- Settles O60: PIX holds the image's pixels, and the raw bytes they are made of are the ones RAW has written. -/
theorem completedImageIsThreeSamplesAndAlpha : Obligations.CompletedImageIsThreeSamplesAndAlpha := by
  unfold Obligations.CompletedImageIsThreeSamplesAndAlpha
  intro s g hok hpolicy hdone x y hx hy
  obtain ⟨hin, hpixels⟩ := jobFunction_holdsPixels hok hpolicy hdone
  obtain ⟨herr, -, hraw, -⟩ := jobFunction_done hok hdone
  have hrow := rowPixels_le hy
  have hp : y * g.width + x < pixelCount g := by omega
  have hpixel := hpixels _ hp
  have hwritten : writtenBelow (rawLength g) (jobFunction s).raw := hraw ▸ writtenBelow_defilterStage herr
  refine ⟨fun k hk => ?_, hpixel 3 (by omega)⟩
  have hsample := hin _ hp
  rw [hpixel k (by omega), Nat.mul_comm g.width y, find_eq_readByte (sp := .raw) s (hwritten _ (by omega))]
  match k, hk with
  | 0, _ => rfl
  | 1, _ => rfl
  | 2, _ => rfl

end Sys2Proof.Machine
end

section
/-! PROOF. The Geometry/Format Resolver (40_resolver R72 to R76, R78; O18 to O20): the bits of a pixel, the bytes of a
pixel and of a row as ceilings, and when the rows are pixel-aligned. -/

namespace Sys2Proof.Machine

/-! ## Bits per pixel -/

/-- bitsPerPixel over the colour types as bytes (40_resolver R72, R73). -/
theorem bitsPerPixel_eq (ct d : Byte) :
    bitsPerPixel ct d =
      if ct = 0 ∨ ct = 3 then some d.toNat
      else if ct = 2 then some (3 * d.toNat)
      else if ct = 4 then some (2 * d.toNat)
      else if ct = 6 then some (4 * d.toNat)
      else none := by
  split_ifs with h03 h2 h4 h6
  · rcases h03 with rfl | rfl <;> rfl
  · subst h2; rfl
  · subst h4; rfl
  · subst h6; rfl
  · unfold bitsPerPixel
    split
    case h_6 => rfl
    all_goals bv_omega

/-- A pixel has one to four samples of the bit depth (40_resolver R72). -/
theorem bitsPerPixel_some {ct d : Byte} {b : Nat} (h : bitsPerPixel ct d = some b) :
    ∃ k ∈ [1, 2, 3, 4], b = k * d.toNat := by
  rw [bitsPerPixel_eq] at h
  split_ifs at h <;> cases h
  · exact ⟨1, by decide, (Nat.one_mul _).symm⟩
  · exact ⟨3, by decide, rfl⟩
  · exact ⟨2, by decide, rfl⟩
  · exact ⟨4, by decide, rfl⟩

theorem toNat_of_legalDepth {d : Byte} (h : legalDepth d = true) : d.toNat ∈ [1, 2, 4, 8, 16] := by
  unfold legalDepth at h
  split at h
  case h_6 => cases h
  all_goals simp [*]

/-- The values of BITS with a legal depth. -/
def legalBits : List Nat := [1, 2, 3, 4, 6, 8, 12, 16, 24, 32, 48, 64]

/-- With a legal depth BITS is one of twelve values (40_resolver R72). -/
theorem bitsPerPixel_mem {ct d : Byte} {b : Nat} (hd : legalDepth d = true) (h : bitsPerPixel ct d = some b) :
    b ∈ legalBits := by
  obtain ⟨k, hk, rfl⟩ := bitsPerPixel_some h
  have hprod : ∀ k ∈ [1, 2, 3, 4], ∀ n ∈ [1, 2, 4, 8, 16], k * n ∈ legalBits := by decide
  exact hprod k hk _ (toNat_of_legalDepth hd)

/-- Settles O18: the range is that of the twelve values of BITS. -/
theorem resolverMapsColorTypes : Obligations.ResolverMapsColorTypes := by
  unfold Obligations.ResolverMapsColorTypes
  refine fun ct d => ⟨bitsPerPixel_eq ct d, fun hd b hb => ?_⟩
  have hlegal : ∀ d ∈ ([1, 2, 4, 8, 16] : List Byte), legalDepth d = true := by decide
  have hrange : ∀ b ∈ legalBits, 1 ≤ b ∧ b ≤ 64 := by decide
  exact hrange b (bitsPerPixel_mem (hlegal d hd) hb)

/-! ## Bytes per pixel and per row -/

/-- A ceiling over 8 bits is enough bytes, and no byte too many. -/
theorem ceilDiv_eight (p : Nat) : p ≤ 8 * ceilDiv p 8 ∧ 8 * ceilDiv p 8 < p + 8 := by
  unfold ceilDiv
  omega

theorem bytesPerPixel_bounds (g : Geometry) : g.bits ≤ 8 * bytesPerPixel g ∧ 8 * bytesPerPixel g < g.bits + 8 :=
  ceilDiv_eight g.bits

theorem scanLength_eq (g : Geometry) : scanLength g = ceilDiv (g.bits * g.width) 8 :=
  Nat.add_sub_cancel_left ..

theorem scanLength_bounds (g : Geometry) :
    g.bits * g.width ≤ 8 * scanLength g ∧ 8 * scanLength g < g.bits * g.width + 8 :=
  scanLength_eq g ▸ ceilDiv_eight (g.bits * g.width)

theorem bytesPerPixel_mem {r : Regs} {g : Geometry} (hg : geometry r = some g) (hd : legalDepth r.bitDepth = true) :
    bytesPerPixel g ∈ [1, 2, 3, 4, 6, 8] := by
  obtain ⟨-, -, hbits⟩ := geometry_some hg
  have hceil : ∀ b ∈ legalBits, ceilDiv b 8 ∈ [1, 2, 3, 4, 6, 8] := by decide
  exact hceil _ (bitsPerPixel_mem hd hbits)

/-- A row of at least one pixel has at least one pixel's bytes. -/
theorem bytesPerPixel_le_scanLength {g : Geometry} (hw : 1 ≤ g.width) : bytesPerPixel g ≤ scanLength g := by
  have hpixel : g.bits ≤ g.bits * g.width := Nat.le_mul_of_pos_right _ hw
  obtain ⟨-, hbpp⟩ := bytesPerPixel_bounds g
  obtain ⟨hrow, -⟩ := scanLength_bounds g
  omega

/-- Settles O19: BPP and L are ceilings, and BITS is one of twelve values. -/
theorem geometryRanges : Obligations.GeometryRanges := by
  unfold Obligations.GeometryRanges
  intro r g hg hd hw
  obtain ⟨hbpp, hbpp'⟩ := bytesPerPixel_bounds g
  obtain ⟨hrow, hrow'⟩ := scanLength_bounds g
  have hmem := bytesPerPixel_mem hg hd
  have hpos : 1 ≤ bytesPerPixel g := by
    have hone : ∀ n ∈ [1, 2, 3, 4, 6, 8], 1 ≤ n := by decide
    exact hone _ hmem
  have hle := bytesPerPixel_le_scanLength hw
  exact ⟨hbpp, hbpp', hmem, fun _ => by omega, rowStride_eq g, hrow, hrow', hpos.trans hle, hle⟩

/-! ## Pixel-aligned rows -/

/-- The rows are pixel-aligned exactly when the bits that whole pixel bytes add to a row are less than a byte
(40_resolver R78). -/
theorem scanLength_eq_pixels_iff (g : Geometry) :
    scanLength g = bytesPerPixel g * g.width ↔ g.width * (8 * bytesPerPixel g - g.bits) < 8 := by
  obtain ⟨hbpp, -⟩ := bytesPerPixel_bounds g
  obtain ⟨hrow, hrow'⟩ := scanLength_bounds g
  have hbits : 8 * (bytesPerPixel g * g.width) = g.bits * g.width + g.width * (8 * bytesPerPixel g - g.bits) :=
    calc 8 * (bytesPerPixel g * g.width)
        = (g.bits + (8 * bytesPerPixel g - g.bits)) * g.width := by rw [Nat.add_sub_cancel' hbpp, Nat.mul_assoc]
      _ = g.bits * g.width + g.width * (8 * bytesPerPixel g - g.bits) := by rw [Nat.add_mul, Nat.mul_comm g.width]
  omega

/-- Whole bytes of bits add nothing. -/
theorem bytesPerPixel_of_whole_bytes {g : Geometry} (h : g.bits % 8 = 0) : 8 * bytesPerPixel g = g.bits := by
  obtain ⟨hbpp, hbpp'⟩ := bytesPerPixel_bounds g
  omega

/-- Settles O20: the first case of the condition is one of the second, with nothing added. -/
theorem rowsArePixelAlignedExactlyWhen : Obligations.RowsArePixelAlignedExactlyWhen := by
  unfold Obligations.RowsArePixelAlignedExactlyWhen
  intro r g _ _ _
  have hwhole : g.bits % 8 = 0 → g.width * (8 * bytesPerPixel g - g.bits) < 8 := fun h => by
    rw [bytesPerPixel_of_whole_bytes h, Nat.sub_self, Nat.mul_zero]
    decide
  exact (scanLength_eq_pixels_iff g).trans (or_iff_right_of_imp hwhole).symm

end Sys2Proof.Machine
end

section
/-! PROOF. Where a filter type does not complete (log entry 11; O34): without a geometry, and at or above ROW_CAP. -/

namespace Sys2Proof.Machine

theorem exec_noGeometry {s : State} (hg : geometry s.reg = none) (ft : Instr) : exec ft s = .fault .noGeometry := by
  simp only [exec_eq_reconStep, reconStep, hg]

theorem exec_beyondCapacity {s : State} {g : Geometry} (hg : geometry s.reg = some g)
    (hi : s.params.rowCap ≤ s.seq.i) (ft : Instr) : exec ft s = .fault (.beyondCapacity .cur) := by
  simp only [exec_eq_reconStep, reconStep, hg, if_neg (Nat.not_lt.2 hi)]

/-- Settles O34. -/
theorem reconstructionStopsOffTheMachine : Obligations.ReconstructionStopsOffTheMachine := by
  unfold Obligations.ReconstructionStopsOffTheMachine
  exact fun ft s => ⟨fun hg => exec_noGeometry hg ft, fun g hg hi => exec_beyondCapacity hg hi ft⟩

end Sys2Proof.Machine
end

section
/-! PROOF. The filter types byte by byte (41_defilter R82 to R84, R87 to R94; O28 to O33, O35 to O38, O41):
`exec_stores` says that a step completes and stores `reconValue`, and the lemmas about `reconValue` say what that byte is. -/

namespace Sys2Proof.Machine

/-! ## The predictors -/

/-- The Paeth function over the bytes' values (41_defilter R91). -/
theorem paeth_eq (a b c : Byte) : paeth a b c =
    let pa := ((b.toNat : Int) - c.toNat).natAbs
    let pb := ((a.toNat : Int) - c.toNat).natAbs
    let pc := ((a.toNat : Int) - c.toNat + ((b.toNat : Int) - c.toNat)).natAbs
    if pa ≤ pb ∧ pa ≤ pc then a else if pb ≤ pc then b else c := rfl

/-- Settles O36, by the three cases of the function. -/
theorem paethPicksTheNearest : Obligations.PaethPicksTheNearest := by
  unfold Obligations.PaethPicksTheNearest
  intro a b c
  have ha := a.isLt
  have hb := b.isLt
  have hc := c.isLt
  refine ⟨by omega, by omega, by omega, ?_⟩
  rw [paeth_eq]
  dsimp only
  split_ifs with hleft habove
  · exact .inl ⟨rfl, hleft⟩
  · exact .inr (.inl ⟨rfl, by omega, habove⟩)
  · exact .inr (.inr ⟨rfl, by omega, by omega⟩)

/-- Under a row of zeros the left byte is the nearest (41_defilter R93). -/
theorem paeth_zero_above (a : Byte) : paeth a 0 0 = a := by
  rw [paeth_eq]
  exact if_pos (by simp)

/-- Without a left neighbour the above byte is the nearest (41_defilter R94). -/
theorem paeth_zero_left (b : Byte) : paeth 0 b 0 = b := by
  by_cases hb : b = 0
  · subst hb; rfl
  · have hpos : b.toNat ≠ 0 := fun h => hb (BitVec.eq_of_toNat_eq h)
    rw [paeth_eq]
    dsimp only
    rw [if_neg (by simp; omega), if_pos (by simp)]

/-- A sum that fits a byte is not cut by either width (41_defilter R90). -/
theorem mod_avgSumWidth {n : Nat} (h : n < 256) (aw : AvgSumWidth) : n % 2 ^ aw.bits = n := by
  cases aw <;> simp only [AvgSumWidth.bits] <;> omega

/-- Settles O41: the 9-bit sum is whole, and the 8-bit one is 256 less from 256 up. -/
theorem averageWidthsDifferOnWideSums : Obligations.AverageWidthsDifferOnWideSums := by
  unfold Obligations.AverageWidthsDifferOnWideSums
  intro a b
  have ha := a.isLt
  have hb := b.isLt
  simp only [avgPredictor_eq, AvgSumWidth.bits]
  omega

theorem predictor_nonneg (aw : AvgSumWidth) (ft : Instr) (a b c : Byte) : 0 ≤ predictor aw ft a b c := by
  rw [predictor_eq]
  exact Int.natCast_nonneg _

/-! ## The byte a step stores -/

section
variable (g : Geometry) (s : State)

theorem reconValue_none : reconValue .none g s = readByte .cur s.seq.i s := wrap8_byte _

theorem reconValue_sub :
    reconValue .sub g s = readByte .cur s.seq.i s + (rowOperands (bytesPerPixel g) s.seq.i s).a := wrap8_add_byte ..

theorem reconValue_up : reconValue .up g s = readByte .cur s.seq.i s + readByte .prev s.seq.i s := wrap8_add_byte ..

theorem reconValue_paeth : reconValue .paeth g s =
    readByte .cur s.seq.i s +
      paeth (rowOperands (bytesPerPixel g) s.seq.i s).a (readByte .prev s.seq.i s)
        (rowOperands (bytesPerPixel g) s.seq.i s).c := wrap8_add_byte ..

/-- Every filter type stores (x + pred) mod 256 (41_defilter R83, R84). -/
theorem reconValue_toNat (ft : Instr) :
    let o := rowOperands (bytesPerPixel g) s.seq.i s
    (reconValue ft g s).toNat = (o.x.toNat + (predictor s.params.avgSumWidth ft o.a o.b o.c).toNat) % 256 := by
  intro o
  have hsum : byteInt o.x + predictor s.params.avgSumWidth ft o.a o.b o.c =
      ((o.x.toNat + (predictor s.params.avgSumWidth ft o.a o.b o.c).toNat : Nat) : Int) := by
    rw [Nat.cast_add, Int.toNat_of_nonneg (predictor_nonneg ..)]
    rfl
  calc (reconValue ft g s).toNat
      = (wrap8 (byteInt o.x + predictor s.params.avgSumWidth ft o.a o.b o.c)).toNat := rfl
    _ = _ := by rw [hsum, wrap8_natCast]

end

/-- Settles O33, from what a step that answers can have done. -/
theorem reconstructionFrame : Obligations.ReconstructionFrame := by
  unfold Obligations.ReconstructionFrame
  intro ft s t g hg ht
  obtain ⟨g', hg', -, rfl⟩ := exec_next ht
  obtain rfl : g' = g := Option.some.inj (hg'.symm.trans hg)
  refine ⟨rfl, fun j hj => ?_, rfl⟩
  rw [advanceRecon_readByte, readByte_writeByte_address hj]

section
variable {s : State} {g : Geometry} (hg : geometry s.reg = some g) (hi : s.seq.i < s.params.rowCap)
include hg hi

/-- A filter type's step writes no register and stores its value at SEQ.i (41_defilter R82). -/
theorem exec_stores (ft : Instr) :
    ∃ t, exec ft s = .next t ∧ t.reg = s.reg ∧ readByte .cur s.seq.i t = reconValue ft g s :=
  ⟨_, exec_completes hg hi ft, rfl, by simp⟩

/-- Two filter types that store the same byte do the same. -/
theorem exec_eq_of_reconValue {ft ft' : Instr} (h : reconValue ft g s = reconValue ft' g s) :
    exec ft s = exec ft' s := by
  rw [exec_completes hg hi ft, exec_completes hg hi ft', h]

end

/-- The left operand's value (30_encoding R63). -/
theorem rowOperands_a_toNat (bpp i : Nat) (s : State) :
    (rowOperands bpp i s).a.toNat = if bpp ≤ i then (readByte .cur (i - bpp) s).toNat else 0 := by
  simp only [rowOperands]
  split <;> rfl

/-- On the first pixel of a row there is no byte to the left, nor above it (30_encoding R63). -/
theorem rowOperands_first {bpp i : Nat} (h : i < bpp) (s : State) :
    (rowOperands bpp i s).a = 0 ∧ (rowOperands bpp i s).c = 0 :=
  ⟨if_neg (Nat.not_le.2 h), if_neg (Nat.not_le.2 h)⟩

/-! ## What each filter type stores -/

/-- Settles O28. -/
theorem noneKeepsTheByte : Obligations.NoneKeepsTheByte := by
  unfold Obligations.NoneKeepsTheByte
  intro s g hg hi
  obtain ⟨t, ht, hreg, hcur⟩ := exec_stores hg hi .none
  exact ⟨t, ht, hreg, hcur.trans (reconValue_none g s)⟩

/-- Settles O29: without a left neighbour the byte added is 0. -/
theorem subAddsTheLeftByte : Obligations.SubAddsTheLeftByte := by
  unfold Obligations.SubAddsTheLeftByte
  intro s g hg hi
  obtain ⟨t, ht, hreg, hcur⟩ := exec_stores hg hi .sub
  refine ⟨t, ht, hreg, ?_⟩
  rw [hcur, reconValue_sub, rowOperands]
  split
  · rfl
  · exact BitVec.add_zero _

/-- Settles O30. -/
theorem upAddsTheAboveByte : Obligations.UpAddsTheAboveByte := by
  unfold Obligations.UpAddsTheAboveByte
  intro s g hg hi
  obtain ⟨t, ht, hreg, hcur⟩ := exec_stores hg hi .up
  exact ⟨t, ht, hreg, hcur.trans (reconValue_up g s)⟩

/-- Settles O35, from the value in ℕ. -/
theorem eachFilterAddsItsPredictor : Obligations.EachFilterAddsItsPredictor := by
  unfold Obligations.EachFilterAddsItsPredictor
  intro ft s g hg hi o pred
  obtain ⟨t, ht, -, hcur⟩ := exec_stores hg hi ft
  have hpred : predictor s.params.avgSumWidth ft o.a o.b o.c = (pred : Int) := predictor_eq ..
  refine ⟨t, ht, ?_⟩
  rw [hcur, reconValue_toNat, hpred, Int.toNat_natCast]

/-- Settles O31: a width of 9 keeps the whole sum, and either width keeps a sum that is one byte. -/
theorem avgAddsTheHalvedSum : Obligations.AvgAddsTheHalvedSum := by
  unfold Obligations.AvgAddsTheHalvedSum
  intro s g hg hi x a b
  obtain ⟨t, ht, hreg, hcur⟩ := exec_stores hg hi .avg
  have ha : (rowOperands (bytesPerPixel g) s.seq.i s).a.toNat = a := rowOperands_a_toNat ..
  have hvalue : (readByte .cur s.seq.i t).toNat = (x + (a + b) % 2 ^ s.params.avgSumWidth.bits / 2) % 256 := by
    rw [hcur, reconValue_toNat, predictor, avgPredictor_eq, Int.toNat_natCast, ha]
    rfl
  have hb : b < 256 := (readByte .prev s.seq.i s).isLt
  refine ⟨t, ht, hreg, hvalue, fun hw => ?_, fun hfirst => ?_⟩
  · have ha' : a < 256 := ha ▸ (rowOperands (bytesPerPixel g) s.seq.i s).a.isLt
    have hsum : a + b < 2 ^ AvgSumWidth.w9.bits := by simp only [AvgSumWidth.bits]; omega
    rw [hvalue, hw, Nat.mod_eq_of_lt hsum]
  · have hzero : a = 0 := if_neg (Nat.not_le.2 hfirst)
    rw [hvalue, hzero, Nat.zero_add, mod_avgSumWidth hb]

/-- Settles O32, by the three cases of the Paeth function. -/
theorem paethAddsThePredictor : Obligations.PaethAddsThePredictor := by
  unfold Obligations.PaethAddsThePredictor
  intro s g hg hi x a b c pa pb pc
  obtain ⟨t, ht, hreg, hcur⟩ := exec_stores hg hi .paeth
  have hvalue : readByte .cur s.seq.i t = x + if pa ≤ pb ∧ pa ≤ pc then a else if pb ≤ pc then b else c :=
    hcur.trans (reconValue_paeth g s)
  refine ⟨t, ht, hreg, fun hleft => ?_, fun hleft habove => ?_, fun hleft habove => ?_⟩
  · rw [hvalue, if_pos hleft]
  · rw [hvalue, if_neg hleft, if_pos habove]
  · rw [hvalue, if_neg hleft, if_neg habove]

/-! ## Row 0 and the first pixel -/

/-- Under a row of zeros both bytes above are 0. -/
theorem rowOperands_zeroAbove {s : State} {i : Nat} (h : ∀ j, j ≤ i → readByte .prev j s = 0) (bpp : Nat) :
    (rowOperands bpp i s).c = 0 := by
  simp only [rowOperands]
  split
  · exact h _ (Nat.sub_le ..)
  · rfl

/-- Settles O37: with b and c zero the predictors of UP and PAETH are those of NONE and SUB. -/
theorem rowZeroCollapses : Obligations.RowZeroCollapses := by
  unfold Obligations.RowZeroCollapses
  intro s g hg hi hprev
  have hb : readByte .prev s.seq.i s = 0 := hprev _ le_rfl
  refine ⟨exec_eq_of_reconValue hg hi ?_, exec_eq_of_reconValue hg hi ?_, ?_⟩
  · rw [reconValue_up, reconValue_none, hb]
    exact BitVec.add_zero _
  · rw [reconValue_paeth, reconValue_sub, hb, rowOperands_zeroAbove hprev, paeth_zero_above]
  · obtain ⟨t, ht, -, hvalue, -⟩ := avgAddsTheHalvedSum s g hg hi
    have hb' : (readByte .prev s.seq.i s).toNat = 0 := congrArg BitVec.toNat hb
    refine ⟨t, ht, ?_⟩
    rw [hvalue, hb', ← rowOperands_a_toNat, Nat.add_zero, mod_avgSumWidth (BitVec.isLt _)]

/-- Settles O38: with a and c zero the predictors of SUB and PAETH are those of NONE and UP. -/
theorem firstPixelCollapses : Obligations.FirstPixelCollapses := by
  unfold Obligations.FirstPixelCollapses
  intro s g hg hi hfirst
  obtain ⟨ha, hc⟩ := rowOperands_first hfirst s
  refine ⟨exec_eq_of_reconValue hg hi ?_, exec_eq_of_reconValue hg hi ?_, ?_⟩
  · rw [reconValue_sub, reconValue_none, ha]
    exact BitVec.add_zero _
  · rw [reconValue_paeth, reconValue_up, ha, hc, paeth_zero_left]
  · obtain ⟨t, ht, -, -, -, hvalue⟩ := avgAddsTheHalvedSum s g hg hi
    exact ⟨t, ht, hvalue hfirst⟩

end Sys2Proof.Machine
end

section
/-! PROOF. The inverse law (41_defilter R97; O40): by induction on the reconstructed bytes, each of them is the byte of
the row that the forward filter took. -/

namespace Sys2Proof.Machine

@[simp] theorem forwardRow_length (aw : AvgSumWidth) (ft : Instr) (bpp : Nat) (prev row : List Byte) :
    (forwardRow aw ft bpp prev row).length = row.length := by
  simp [forwardRow]

theorem forwardRow_getD (aw : AvgSumWidth) (ft : Instr) (bpp : Nat) (prev : List Byte) {row : List Byte} {k : Nat}
    (hk : k < row.length) : (forwardRow aw ft bpp prev row).getD k 0 =
      wrap8 (byteInt (row.getD k 0) - predictor aw ft (leftOf bpp row k) (prev.getD k 0) (leftOf bpp prev k)) := by
  rw [forwardRow, List.getD_eq_getElem _ _ (by simpa using hk)]
  simp only [List.getElem_map, List.getElem_range]

/-- The left neighbour of byte k is one of the bytes before it. -/
theorem leftOf_of_agreeBefore {bpp k : Nat} {row row' : List Byte} (hbpp : 1 ≤ bpp)
    (h : ∀ i, i < k → row.getD i 0 = row'.getD i 0) : leftOf bpp row k = leftOf bpp row' k := by
  unfold leftOf
  split
  · exact h _ (by omega)
  · rfl

/-- The first k bytes reconstructed from the forward filter's are the row's. -/
theorem reconBytes_forwardRow (aw : AvgSumWidth) (ft : Instr) {bpp : Nat} (hbpp : 1 ≤ bpp) (prev row : List Byte)
    (k : Nat) (hk : k ≤ row.length) :
    ∀ i, i < k → (reconBytes aw ft bpp prev k (forwardRow aw ft bpp prev row)).getD i 0 = row.getD i 0 := by
  induction k with
  | zero => intro i hi; omega
  | succ k ih =>
    intro i hi
    have hbefore := ih (by omega)
    rcases Nat.lt_succ_iff_lt_or_eq.1 hi with hlt | rfl
    · rw [reconBytes_below _ _ _ _ _ hlt, hbefore i hlt]
    · rw [reconBytes_at _ _ _ _ _ (by rw [forwardRow_length]; omega), forwardRow_getD _ _ _ _ (by omega),
        leftOf_of_agreeBefore hbpp hbefore, wrap8_sub_add]

/-- Settles O40: all bytes of the row are reconstructed. -/
theorem reconstructionInvertsTheForwardFilter : Obligations.ReconstructionInvertsTheForwardFilter := by
  unfold Obligations.ReconstructionInvertsTheForwardFilter
  intro aw ft bpp prev row hbpp
  refine List.ext_getElem (by simp) fun i h hi => ?_
  rw [← List.getD_eq_getElem _ 0 h, ← List.getD_eq_getElem _ 0 hi, reconRow, forwardRow_length]
  exact reconBytes_forwardRow aw ft hbpp prev row row.length le_rfl i hi

end Sys2Proof.Machine
end

section
/-! PROOF. Fetching and committing a row (41_defilter R80, R81, R85; O25, O26, O42). -/

namespace Sys2Proof.Machine

section
variable {sp sp' : Space} {a b n i : Nat} {s s' : State}

/-- Bytes copied from one store to another read back as they were in the first. -/
theorem readByte_writeBytes_readBytes (hi : i < n) :
    readByte sp (a + i) (writeBytes sp a (readBytes sp' b n s') s) = readByte sp' (b + i) s' := by
  rw [readByte_writeBytes, if_pos (by rw [readBytes_length]; omega), Nat.add_sub_cancel_left,
    readBytes_getD _ _ _ _ _ hi]

theorem readByte_writeBytes_readBytes_zero (hi : i < n) :
    readByte sp i (writeBytes sp 0 (readBytes sp' b n s') s) = readByte sp' (b + i) s' := by
  simpa using readByte_writeBytes_readBytes (sp := sp) (a := 0) (s := s) hi

/-- Bytes copied into a store leave its other addresses alone. -/
theorem readByte_writeBytes_readBytes_outside {c : Nat} (h : c < a ∨ a + n ≤ c) :
    readByte sp c (writeBytes sp a (readBytes sp' b n s') s) = readByte sp c s := by
  rw [readByte_writeBytes, if_neg (by rw [readBytes_length]; omega)]

end

/-- Settles O25. -/
theorem shortRowRaisesRangeDefilter : Obligations.ShortRowRaisesRangeDefilter := by
  unfold Obligations.ShortRowRaisesRangeDefilter
  intro s g hturn hst hg hshort
  rw [step_engine hturn, engineStep_rowFetch (s := afterTurn s) hst, rowFetchStep_short (s := afterTurn s) hg hshort]
  rfl

/-- Settles O26: the filter-type byte decodes, or is reserved. -/
theorem rowFetchChecksAndLoads : Obligations.RowFetchChecksAndLoads := by
  unfold Obligations.RowFetchChecksAndLoads
  intro s g hturn hst hg hin hcap hrow ft
  have hstep : step s = rowFetchStep (afterTurn s) :=
    (step_engine hturn).trans (engineStep_rowFetch (s := afterTurn s) hst)
  have hcap' : s.seq.y * rowStride g + rowStride g ≤ s.params.inCap := hin.trans hcap
  have hread : readByte .inp (s.seq.y * rowStride g) (afterTurn s) = ft := afterTurn_readByte ..
  rcases decodeFilter_cases ft with ⟨hlt, i, hi⟩ | ⟨hge, hbad⟩
  · refine ⟨fun h => by omega, fun _ => ?_⟩
    have hload := rowFetchStep_completes (s := afterTurn s) (i := i) hg hin hcap' hrow
      (by rw [afterTurn_seq, hread]; exact hi)
    refine ⟨_, hstep.trans hload, ?_, fun i hi => ?_, fun i hi => ?_, rfl⟩
    · simp only [afterTurn_seq, hread]
    · rw [readByte_withSeq, readByte_writeBytes_readBytes_zero hi, afterTurn_readByte, afterTurn_seq]
    · rw [readByte_withSeq, readByte_writeBytes_readBytes_outside (by omega), afterTurn_readByte]
  · refine ⟨fun _ => ?_, fun h => by omega⟩
    exact hstep.trans (rowFetchStep_badFilter (s := afterTurn s) hg hin hcap'
      (by rw [afterTurn_seq, hread]; exact hbad))

/-- Settles O42: the row is copied to RAW, and then to PREV. -/
theorem commitCopiesTheRow : Obligations.CommitCopiesTheRow := by
  unfold Obligations.CommitCopiesTheRow
  intro s g hturn hst hg hrow hraw
  have hstep := ((step_engine hturn).trans (engineStep_commit (s := afterTurn s) hst)).trans
    (commitStep_completes (s := afterTurn s) hg hrow hraw)
  refine ⟨_, hstep, fun i hi => ?_, fun a ha => ?_, fun i hi => ?_, fun i hi => ?_, ?_, ?_, ?_⟩
  · rw [advanceCommit_readByte, readByte_writeBytes_space (by decide), afterTurn_seq,
      readByte_writeBytes_readBytes hi, Nat.zero_add, afterTurn_readByte]
  · rw [advanceCommit_readByte, readByte_writeBytes_space (by decide), afterTurn_seq,
      readByte_writeBytes_readBytes_outside ha, afterTurn_readByte]
  · rw [advanceCommit_readByte, readByte_writeBytes_readBytes_zero hi, Nat.zero_add, afterTurn_readByte]
  · rw [advanceCommit_readByte, readByte_writeBytes_readBytes_outside (by omega),
      readByte_writeBytes_space (by decide), afterTurn_readByte]
  · simp [advanceCommit_eq]
  · simp [advanceCommit_eq]
  · rw [advanceCommit_eq]; rfl

end Sys2Proof.Machine
end

section
/-! PROOF. What a job's result depends on, and what it leaves (41_defilter R86; 42_assembler R104; O56, O59). For
O56 two jobs that differ in what RAW and PIX held are run side by side: each loop fills its memory from address 0 on, with the
same bytes in both. -/

namespace Sys2Proof.Machine

/-! ## The input of a job -/

/-- The row loop reads IN below the end of its last row only (30_encoding R57). -/
theorem defilterRows_congr (aw : AvgSumWidth) (g : Geometry) {inp inp' : Nat → Byte} (inLen rows : Nat) :
    ∀ {y : Nat} (prev : List Byte) (raw : Memory), (∀ a, a < (y + rows) * rowStride g → inp' a = inp a) →
      defilterRows aw g inp' inLen rows y prev raw = defilterRows aw g inp inLen rows y prev raw := by
  induction rows with
  | zero => intros; rfl
  | succ rows ih =>
    intro y prev raw h
    have hrow : y * rowStride g + rowStride g ≤ (y + (rows + 1)) * rowStride g := by
      rw [← Nat.succ_mul]
      exact Nat.mul_le_mul_right _ (by omega)
    have hstride := rowStride_eq g
    have hft : inp' (y * rowStride g) = inp (y * rowStride g) := h _ (by omega)
    have hdata : (List.range (scanLength g)).map (fun i => inp' (y * rowStride g + 1 + i)) =
        (List.range (scanLength g)).map fun i => inp (y * rowStride g + 1 + i) :=
      List.map_congr_left fun i hi => h _ (by rw [List.mem_range] at hi; omega)
    have hrest : ∀ prev raw, defilterRows aw g inp' inLen rows (y + 1) prev raw =
        defilterRows aw g inp inLen rows (y + 1) prev raw :=
      fun prev raw => ih prev raw fun a ha => h a (by rwa [show y + (rows + 1) = y + 1 + rows by omega])
    simp only [defilterRows, hft, hdata, hrest]

/-- Settles O59: the start checks do not read IN, and the rows end at H·S. -/
theorem trailingInputHasNoEffect : Obligations.TrailingInputHasNoEffect := by
  unfold Obligations.TrailingInputHasNoEffect
  rintro s s' g hg ⟨hsame, hread⟩
  have hset : s' = setMem .inp s'.inp s := hsame
  generalize s'.inp = m at hset
  subst hset
  have hchecks : startChecks (setMem .inp m s) = startChecks s := startChecks_congr rfl rfl rfl rfl rfl rfl
  cases hok : startChecks s with
  | error e => simp only [jobFunction, hchecks, hok]; rfl
  | ok g' =>
    obtain rfl : g = g' := eq_of_startChecks_ok hok hg
    have hstage : defilterStage g (setMem .inp m s) = defilterStage g s :=
      defilterRows_congr _ g _ g.height _ _ (by rwa [Nat.zero_add])
    simp only [jobFunction, hchecks, hok, hstage]
    rfl

/-! ## The ranges a job writes -/

/-- Below n both memories hold the same written bytes, and from n up the first holds what m₀ does: what a loop that has
filled n addresses leaves of m₀, beside what it leaves of another memory. -/
structure FilledBelow (m₀ : Memory) (n : Nat) (m m' : Memory) : Prop where
  written : ∀ a, a < n → ∃ b, Memory.find m a = some b ∧ Memory.find m' a = some b
  kept : ∀ a, n ≤ a → Memory.find m a = Memory.find m₀ a

theorem FilledBelow.zero (m m' : Memory) : FilledBelow m 0 m m' :=
  ⟨fun _ ha => absurd ha (Nat.not_lt_zero _), fun _ _ => rfl⟩

/-- The next bytes are filled by writing the same in both. -/
theorem FilledBelow.writeList {m₀ m m' : Memory} {n : Nat} (h : FilledBelow m₀ n m m') (bs : List Byte) :
    FilledBelow m₀ (n + bs.length) (Memory.writeList m n bs) (Memory.writeList m' n bs) where
  written a ha := by
    rw [find_writeList, find_writeList]
    split
    · exact ⟨_, List.getElem?_eq_getElem (by omega), List.getElem?_eq_getElem (by omega)⟩
    · exact h.written a (by omega)
  kept a ha := by
    rw [find_writeList, if_neg (by omega)]
    exact h.kept a (by omega)

theorem FilledBelow.writeRow {m₀ m m' : Memory} {y len : Nat} (h : FilledBelow m₀ (y * len) m m') {row : List Byte}
    (hlen : row.length = len) :
    FilledBelow m₀ ((y + 1) * len) (Memory.writeList m (y * len) row) (Memory.writeList m' (y * len) row) := by
  rw [Nat.succ_mul]
  simpa only [hlen] using h.writeList row

/-- The filled addresses read alike in two machines. -/
theorem FilledBelow.readByte_eq {m₀ m m' : Memory} {n : Nat} (h : FilledBelow m₀ n m m') (sp : Space) (s s' : State)
    {a : Nat} (ha : a < n) : readByte sp a (setMem sp m' s') = readByte sp a (setMem sp m s) := by
  obtain ⟨b, hb, hb'⟩ := h.written a ha
  simp only [readByte, memOf_setMem_same, hb, hb']

theorem FilledBelow.find_eq {m₀ m m' : Memory} {n : Nat} (h : FilledBelow m₀ n m m') {a : Nat} (ha : a < n) :
    (∃ b, Memory.find m a = some b) ∧ Memory.find m' a = Memory.find m a := by
  obtain ⟨b, hb, hb'⟩ := h.written a ha
  exact ⟨⟨b, hb⟩, hb'.trans hb.symm⟩

/-- The row loop ends alike whatever RAW held, and without an error it has filled its rows (41_defilter R85, R86). -/
theorem filledBelow_defilterRows {aw : AvgSumWidth} {g : Geometry} {inp : Nat → Byte} {inLen : Nat} {m₀ : Memory}
    (rows : Nat) : ∀ {y : Nat} {prev : List Byte} {raw raw' : Memory}, FilledBelow m₀ (y * scanLength g) raw raw' →
      (defilterRows aw g inp inLen rows y prev raw).error = none →
      (defilterRows aw g inp inLen rows y prev raw').error = none ∧
        FilledBelow m₀ ((y + rows) * scanLength g) (defilterRows aw g inp inLen rows y prev raw).raw
          (defilterRows aw g inp inLen rows y prev raw').raw := by
  induction rows with
  | zero => intro y prev raw raw' h _; exact ⟨rfl, h⟩
  | succ rows ih =>
    intro y prev raw raw' h herr
    rw [defilterRows] at herr
    rw [defilterRows, defilterRows]
    split at herr
    · cases herr
    · next hin =>
      rw [if_neg hin, if_neg hin]
      split at herr
      · cases herr
      · next ft hft =>
        rw [show y + (rows + 1) = y + 1 + rows by omega]
        exact ih (h.writeRow (by simp)) herr

section
variable {g : Geometry} {raw raw' : Nat → Byte} {pix : Memory} (hraw : ∀ k, k < rawLength g → raw' k = raw k)
include hraw

/-- A pixel's samples are read inside the raw stream only, or drawn. -/
theorem pixelBytes_congr (o draws : Nat) : pixelBytes g raw' o draws = pixelBytes g raw o draws := by
  have hsample : ∀ k d, sample g raw' k d = sample g raw k d := fun k d => by
    unfold sample
    split
    · next hk => rw [hraw k hk]
    · rfl
  simp only [pixelBytes, hsample]

/-- One pass of the column loop fills a pixel. -/
theorem filledBelow_assemblePixel {y x : Nat} {acc acc' : Memory × Nat}
    (h : FilledBelow pix (4 * (y * g.width + x)) acc.1 acc'.1) (hdraws : acc'.2 = acc.2) :
    FilledBelow pix (4 * (y * g.width + (x + 1))) (assemblePixel g raw y x acc).1 (assemblePixel g raw' y x acc').1 ∧
      (assemblePixel g raw' y x acc').2 = (assemblePixel g raw y x acc).2 := by
  simp only [assemblePixel, pixelBytes_congr hraw, hdraws]
  rw [← Nat.add_assoc, Nat.mul_succ]
  exact ⟨h.writeList (pixelBytes g raw _ acc.2).1, trivial⟩

/-- The column loop fills a row's remaining pixels. -/
theorem filledBelow_assembleColumns {y : Nat} (cols : Nat) :
    ∀ {x : Nat} {acc acc' : Memory × Nat}, FilledBelow pix (4 * (y * g.width + x)) acc.1 acc'.1 → acc'.2 = acc.2 →
      FilledBelow pix (4 * (y * g.width + (x + cols))) (assembleColumns g raw y cols x acc).1
          (assembleColumns g raw' y cols x acc').1 ∧
        (assembleColumns g raw' y cols x acc').2 = (assembleColumns g raw y cols x acc).2 := by
  induction cols with
  | zero => intro x acc acc' h hdraws; exact ⟨h, hdraws⟩
  | succ cols ih =>
    intro x acc acc' h hdraws
    obtain ⟨hpixel, hdraws'⟩ := filledBelow_assemblePixel hraw h hdraws
    rw [assembleColumns_succ, assembleColumns_succ, show x + (cols + 1) = x + 1 + cols by omega]
    exact ih hpixel hdraws'

/-- The row loop fills the remaining rows' pixels (42_assembler R104). -/
theorem filledBelow_assembleRows (rows : Nat) :
    ∀ {y : Nat} {acc acc' : Memory × Nat}, FilledBelow pix (4 * (y * g.width)) acc.1 acc'.1 → acc'.2 = acc.2 →
      FilledBelow pix (4 * ((y + rows) * g.width)) (assembleRows g raw rows y acc).1
        (assembleRows g raw' rows y acc').1 := by
  induction rows with
  | zero => intro y acc acc' h _; exact h
  | succ rows ih =>
    intro y acc acc' h hdraws
    obtain ⟨hrow, hdraws'⟩ := filledBelow_assembleColumns hraw g.width (x := 0) h hdraws
    rw [assembleRows, assembleRows, show y + (rows + 1) = y + 1 + rows by omega]
    rw [Nat.zero_add, ← Nat.succ_mul y] at hrow
    exact ih hrow hdraws'

end

/-- A job that passes the start checks, whose rows are all good and whose image fits ends in DONE. -/
theorem jobFunction_phase_done {s : State} {g : Geometry} (hok : startChecks s = .ok g)
    (hd : (defilterStage g s).error = none) (hfits : assemblerFits s.params.asmOobPolicy g = true) :
    (jobFunction s).phase = .done := by
  simp only [jobFunction, hok, hd, if_pos hfits]

/-- The defilter stage of a job is the same whatever RAW and PIX held before, and fills the raw stream. -/
theorem filledBelow_defilterStage {s : State} {g : Geometry} (herr : (defilterStage g s).error = none)
    (raw pix : Memory) :
    (defilterStage g { s with raw := raw, pix := pix }).error = none ∧
      FilledBelow s.raw (rawLength g) (defilterStage g s).raw
        (defilterStage g { s with raw := raw, pix := pix }).raw := by
  have h := filledBelow_defilterRows g.height (y := 0) (raw' := raw)
    (by rw [Nat.zero_mul]; exact FilledBelow.zero s.raw raw) herr
  rwa [Nat.zero_add] at h

/-- A completed job fills exactly its ranges of RAW and PIX, alike whatever they held before (20_memory R39). -/
theorem jobFunction_filledBelow {s : State} {g : Geometry} (hok : startChecks s = .ok g)
    (hdone : (jobFunction s).phase = .done) (raw pix : Memory) :
    FilledBelow s.raw (rawLength g) (jobFunction s).raw (jobFunction { s with raw := raw, pix := pix }).raw ∧
      FilledBelow s.pix (4 * pixelCount g) (jobFunction s).pix (jobFunction { s with raw := raw, pix := pix }).pix := by
  obtain ⟨herr, hfits, hraw, hpix⟩ := jobFunction_done hok hdone
  have hok' : startChecks { s with raw := raw, pix := pix } = .ok g :=
    (startChecks_congr rfl rfl rfl rfl rfl rfl).trans hok
  obtain ⟨herr', hfilled⟩ := filledBelow_defilterStage herr raw pix
  obtain ⟨-, -, hraw', hpix'⟩ := jobFunction_done hok' (jobFunction_phase_done hok' herr' hfits)
  rw [hraw, hraw', hpix, hpix']
  refine ⟨hfilled, ?_⟩
  have hpixels := filledBelow_assembleRows
    (fun k hk => hfilled.readByte_eq .raw s { s with raw := raw, pix := pix } hk) g.height (y := 0)
    (acc := (s.pix, s.draws)) (acc' := (pix, s.draws)) (by rw [Nat.zero_mul]; exact FilledBelow.zero s.pix pix) rfl
  rwa [Nat.zero_add, Nat.mul_comm g.height] at hpixels

/-- Settles O56. -/
theorem completedJobWritesExactlyItsRanges : Obligations.CompletedJobWritesExactlyItsRanges := by
  unfold Obligations.CompletedJobWritesExactlyItsRanges
  intro s g raw pix hok hdone r r'
  obtain ⟨hraw, hpix⟩ := jobFunction_filledBelow hok hdone raw pix
  exact ⟨fun _ => hraw.find_eq, hraw.kept, fun _ => hpix.find_eq, hpix.kept⟩

end Sys2Proof.Machine
end

section
/-! PROOF. The assembler (42_assembler R101 to R105, R107, R109; O21, O43 to O46, O53): the tests of ASM_CHECK as bounds,
what a pixel's samples are on each side of the end of the raw stream, and the PIXEL step over them. -/

namespace Sys2Proof.Machine

/-! ## ASM_CHECK -/

/-- The tests of ASM_CHECK as bounds (42_assembler R101). -/
theorem assemblerFits_iff (policy : OobPolicy) (g : Geometry) : assemblerFits policy g = true ↔
    bytesPerPixel g * pixelCount g ≤ rawLength g ∧
      (policy = .rangeError → (bytesPerPixel g : Int) * (pixelCount g - 1) + 3 ≤ rawLength g) := by
  rw [← Nat.cast_le (α := Int), Nat.cast_mul]
  cases policy <;> simp [assemblerFits]

/-- Settles O43: one of the two tests fails exactly when the assembler does not fit. -/
theorem assemblerRangeCheck : Obligations.AssemblerRangeCheck := by
  unfold Obligations.AssemblerRangeCheck
  intro s g hturn hst hg bpp n short
  have hstep : step s = asmCheckStep (afterTurn s) :=
    (step_engine hturn).trans (engineStep_asmCheck (s := afterTurn s) hst)
  rw [hstep, asmCheckStep_completes (s := afterTurn s) hg, afterTurn_params]
  have hshort : ¬ short ↔ assemblerFits s.params.asmOobPolicy g = true := by
    rw [assemblerFits_iff, ← Nat.cast_le (α := Int), Nat.cast_mul]
    simp only [short, bpp, n, not_or, not_and, gt_iff_lt, not_lt]
  refine ⟨fun h => ?_, fun h => ?_⟩
  · rw [if_neg (fun hfits => hshort.2 hfits h)]
  · rw [if_pos (hshort.1 h)]
    rfl

/-! ## Which configurations pass -/

/-- A row holds no more bytes than its pixels' whole bytes. -/
theorem scanLength_le_pixels (g : Geometry) : scanLength g ≤ bytesPerPixel g * g.width := by
  obtain ⟨hbpp, -⟩ := bytesPerPixel_bounds g
  obtain ⟨-, hrow⟩ := scanLength_bounds g
  have hbits : g.bits * g.width ≤ 8 * (bytesPerPixel g * g.width) :=
    (Nat.mul_le_mul_right _ hbpp).trans_eq (Nat.mul_assoc ..)
  omega

/-- BPP·N row by row. -/
theorem bytesPerPixel_mul_pixelCount (g : Geometry) :
    bytesPerPixel g * pixelCount g = g.height * (bytesPerPixel g * g.width) := by
  rw [pixelCount, ← Nat.mul_assoc, Nat.mul_comm]

/-- RAW holds the whole bytes of every pixel exactly when the rows are pixel-aligned (42_assembler R105). -/
theorem pixels_le_rawLength_iff {g : Geometry} (hheight : 1 ≤ g.height) :
    bytesPerPixel g * pixelCount g ≤ rawLength g ↔ scanLength g = bytesPerPixel g * g.width := by
  rw [bytesPerPixel_mul_pixelCount, rawLength, Nat.mul_le_mul_left_iff hheight]
  exact ⟨(scanLength_le_pixels g).antisymm, ge_of_eq⟩

/-- With pixel-aligned rows the last pixel's three samples lie in the stream exactly when BPP is at least 3. -/
theorem lastPixelInStream_iff {g : Geometry} (h : scanLength g = bytesPerPixel g * g.width) :
    (bytesPerPixel g : Int) * (pixelCount g - 1) + 3 ≤ rawLength g ↔ 3 ≤ bytesPerPixel g := by
  have hraw : (rawLength g : Int) = bytesPerPixel g * pixelCount g := by
    rw [rawLength, h, ← bytesPerPixel_mul_pixelCount, Nat.cast_mul]
  rw [hraw, Int.mul_sub, Int.mul_one]
  omega

/-- From three bytes a pixel on, BITS is whole bytes (40_resolver R72, R74). -/
theorem bits_whole_bytes {r : Regs} {g : Geometry} (hg : geometry r = some g) (hd : legalDepth r.bitDepth = true)
    (h : 3 ≤ bytesPerPixel g) : g.bits % 8 = 0 := by
  obtain ⟨-, -, hbits⟩ := geometry_some hg
  have hwhole : ∀ b ∈ legalBits, 3 ≤ ceilDiv b 8 → b % 8 = 0 := by decide
  exact hwhole _ (bitsPerPixel_mem hd hbits) h

/-- Settles O21: RAWN falls short of BPP·N exactly when the rows are not pixel-aligned; then the second test is about BPP
alone. -/
theorem assemblerAcceptsExactlyWhen : Obligations.AssemblerAcceptsExactlyWhen := by
  unfold Obligations.AssemblerAcceptsExactlyWhen
  intro r g hg hd hwidth hheight
  have haligned := pixels_le_rawLength_iff hheight
  refine ⟨?_, ?_, ?_, fun hbpp => ?_⟩
  · rw [bytesPerPixel_mul_pixelCount]
    exact Nat.mul_le_mul_left _ (scanLength_le_pixels g)
  · simp [assemblerFits_iff, haligned]
  · rw [assemblerFits_iff, haligned, and_comm]
    exact and_congr_left fun h => (forall_prop_of_true rfl).trans (lastPixelInStream_iff h)
  · have hwhole := bits_whole_bytes hg hd hbpp
    exact iff_of_true ((rowsArePixelAlignedExactlyWhen r g hg hd hwidth).2 (.inl hwhole)) hwhole

/-! ## The samples of a pixel -/

section
variable {g : Geometry} {k o : Nat} (raw : Nat → Byte) (draws : Nat)

theorem sample_inStream (h : k < rawLength g) : sample g raw k draws = (raw k, draws) := if_pos h

theorem sample_pastStream (h : rawLength g ≤ k) : sample g raw k draws = (Config.drawByte draws, draws + 1) :=
  if_neg (Nat.not_lt.2 h)

/-! How many of a pixel's samples lie in the raw stream (42_assembler R102, R103): the draws are the last ones. -/

theorem pixelBytes_three (h : o + 3 ≤ rawLength g) :
    pixelBytes g raw o draws = ([raw o, raw (o + 1), raw (o + 2), 255], draws) := by
  have h0 : o < rawLength g := by omega
  have h1 : o + 1 < rawLength g := by omega
  simp only [pixelBytes, sample_inStream raw _ h0, sample_inStream raw _ h1, sample_inStream raw _ h]

theorem pixelBytes_two (h1 : o + 1 < rawLength g) (h2 : rawLength g ≤ o + 2) :
    pixelBytes g raw o draws = ([raw o, raw (o + 1), Config.drawByte draws, 255], draws + 1) := by
  have h0 : o < rawLength g := by omega
  simp only [pixelBytes, sample_inStream raw _ h0, sample_inStream raw _ h1, sample_pastStream raw _ h2]

theorem pixelBytes_one (h0 : o < rawLength g) (h1 : rawLength g ≤ o + 1) :
    pixelBytes g raw o draws =
      ([raw o, Config.drawByte draws, Config.drawByte (draws + 1), 255], draws + 2) := by
  have h2 : rawLength g ≤ o + 2 := by omega
  simp only [pixelBytes, sample_inStream raw _ h0, sample_pastStream raw _ h1, sample_pastStream raw _ h2]

theorem pixelBytes_zero (h0 : rawLength g ≤ o) :
    pixelBytes g raw o draws =
      ([Config.drawByte draws, Config.drawByte (draws + 1), Config.drawByte (draws + 2), 255], draws + 3) := by
  have h1 : rawLength g ≤ o + 1 := by omega
  have h2 : rawLength g ≤ o + 2 := by omega
  simp only [pixelBytes, sample_pastStream raw _ h0, sample_pastStream raw _ h1, sample_pastStream raw _ h2]

end

/-! ## The PIXEL step -/

/-- t is what a PIXEL step of s leaves when px are the pixel's four bytes and the count of draws after them: they stand in
PIX at the pixel's place, SEQ and PHASE have moved on (10_state R31), and nothing else has changed. -/
structure PixelStored (g : Geometry) (px : List Byte × Nat) (s t : State) : Prop where
  bytes : ∀ k, k < 4 → readByte .pix (4 * (s.seq.y * g.width + s.seq.x) + k) t = px.1.getD k 0
  draws : t.draws = px.2
  otherPix : ∀ a, (a < 4 * (s.seq.y * g.width + s.seq.x) ∨ 4 * (s.seq.y * g.width + s.seq.x) + 4 ≤ a) →
    readByte .pix a t = readByte .pix a s
  movedOn : let x := if s.seq.x + 1 = g.width then 0 else s.seq.x + 1
    let y := if s.seq.x + 1 = g.width then s.seq.y + 1 else s.seq.y
    t.seq = { s.seq with x := x, y := y, stage := if y = g.height then .halt else .pixel } ∧
    t.reg = { s.reg with phase := if y = g.height then .done else s.reg.phase }
  frame : t = { afterTurn s with pix := t.pix, draws := t.draws, seq := t.seq, reg := t.reg }

/-- Wherever the bytes it touches exist, PIXEL stores the pixel of the job function (42_assembler R102 to R104). -/
theorem step_pixel_stores {s : State} {g : Geometry} (hturn : engineTurn s = true) (hst : s.seq.stage = .pixel)
    (hg : geometry s.reg = some g)
    (hraw : min (bytesPerPixel g * (g.width * s.seq.y + s.seq.x) + 3) (rawLength g) ≤ s.params.rawCap)
    (hpix : 4 * (s.seq.y * g.width + s.seq.x) + 4 ≤ s.params.pixCap) :
    ∃ t, step s = .next t ∧ PixelStored g (pixelBytes g (fun a => readByte .raw a s)
      (bytesPerPixel g * (g.width * s.seq.y + s.seq.x)) s.draws) s t := by
  have hstep := ((step_engine hturn).trans (engineStep_pixel (s := afterTurn s) hst)).trans
    (pixelStep_completes (s := afterTurn s) hg hraw hpix)
  rw [samples_eq_pixelBytes g _ (fun a => afterTurn_readByte .raw a s)] at hstep
  refine ⟨_, hstep, ⟨fun k hk => ?_, ?_, fun a ha => ?_, ?_, ?_⟩⟩
  · rw [advancePixel_readByte, afterTurn_seq, readByte_writeBytes,
      if_pos ⟨by omega, Nat.add_lt_add_left hk _⟩, Nat.add_sub_cancel_left]
    rfl
  · rw [advancePixel_draws, writeBytes_draws]
    rfl
  · have hout : ¬ (4 * (s.seq.y * g.width + s.seq.x) ≤ a ∧ a < 4 * (s.seq.y * g.width + s.seq.x) + 4) := by omega
    rw [advancePixel_readByte, afterTurn_seq, readByte_writeBytes]
    exact (if_neg hout).trans (readByte_congr rfl rfl)
  · simp [advancePixel_eq, hst]
  · rw [advancePixel_eq]
    rfl

/-- Settles O44. -/
theorem pixelCopiesThreeSamples : Obligations.PixelCopiesThreeSamples := by
  unfold Obligations.PixelCopiesThreeSamples
  intro s g hturn hst hg o p hin hraw hpix
  obtain ⟨t, hstep, hstored⟩ := step_pixel_stores hturn hst hg (by omega) hpix
  rw [pixelBytes_three _ _ hin] at hstored
  obtain ⟨hbytes, hdraws, hother, hmoved, hframe⟩ := hstored
  rw [hdraws] at hframe
  exact ⟨t, hstep, hbytes 0 (by decide), hbytes 1 (by decide), hbytes 2 (by decide), hbytes 3 (by decide), hother,
    hmoved, hframe⟩

/-- Settles O45: the end of the stream lies before the third sample, the second or the first. -/
theorem samplesPastTheStreamAreDraws : Obligations.SamplesPastTheStreamAreDraws := by
  unfold Obligations.SamplesPastTheStreamAreDraws
  intro s g hturn hst hg o p hraw hpix hpast
  obtain ⟨t, hstep, hbytes, hdraws, hother, hmoved, hframe⟩ := step_pixel_stores hturn hst hg (by omega) hpix
  refine ⟨t, hstep, hbytes 3 (by decide), fun h1 => ?_, fun h0 h1 => ?_, fun h0 => ?_, hother, hmoved, hframe⟩
  · rw [pixelBytes_two _ _ h1 (by omega)] at hbytes hdraws
    exact ⟨hbytes 0 (by decide), hbytes 1 (by decide), hbytes 2 (by decide), hdraws⟩
  · rw [pixelBytes_one _ _ h0 h1] at hbytes hdraws
    exact ⟨hbytes 0 (by decide), hbytes 1 (by decide), hbytes 2 (by decide), hdraws⟩
  · rw [pixelBytes_zero _ _ h0] at hbytes hdraws
    exact ⟨hbytes 0 (by decide), hbytes 1 (by decide), hbytes 2 (by decide), hdraws⟩

/-! ## The pixels of a job -/

/-- A pixel's number is below the count of pixels. -/
theorem pixelIndex_lt {g : Geometry} {x y : Nat} (hx : x < g.width) (hy : y < g.height) :
    g.width * y + x < pixelCount g := by
  have hrow := rowPixels_le hy
  rw [Nat.mul_comm]
  omega

/-- In PIXEL a job stands at a pixel of an image that ASM_CHECK has passed. -/
theorem Inv.atPixel {s : State} (h : Inv s) (hst : s.seq.stage = .pixel) :
    ∃ g, startChecks s = .ok g ∧ s.seq.y < g.height ∧ s.seq.x < g.width ∧
      assemblerFits s.params.asmOobPolicy g = true := by
  obtain ⟨g, hok, hpos⟩ := h.running (by simp [hst]) (by simp [hst])
  simp only [positionFits_iff, hst] at hpos
  exact ⟨g, hok, hpos⟩

/-- Settles O46: every pixel has its BPP bytes in the stream, and under RangeError its three samples too. -/
theorem noDrawsUnderRangeError : Obligations.NoDrawsUnderRangeError := by
  unfold Obligations.NoDrawsUnderRangeError
  refine ⟨fun g x y k hx hy hk hfits hpast => ?_, fun s t h hst hpolicy ht => ?_⟩
  · have hpixel : bytesPerPixel g * (g.width * y + x) + bytesPerPixel g ≤ bytesPerPixel g * pixelCount g :=
      Nat.mul_le_mul_left _ (pixelIndex_lt hx hy)
    omega
  · obtain ⟨g, hok, hy, hx, hfits⟩ := h.atPixel hst
    have hin := samplesInStream_of_fits (hpolicy ▸ hfits) _ (pixelIndex_lt hx hy)
    obtain ⟨g', hg', -, -, rfl⟩ := pixelStep_next ((engineStep_pixel hst).symm.trans ht)
    obtain rfl := eq_of_startChecks_ok hok hg'
    rw [samples_eq_pixelBytes g' _ (fun _ => rfl), pixelBytes_three _ _ hin, advancePixel_draws, writeBytes_draws]

/-- Settles O53: PIXEL writes no error field, and of PHASE and the stage it only ends the job. -/
theorem pixelStepsNeverFail : Obligations.PixelStepsNeverFail := by
  unfold Obligations.PixelStepsNeverFail
  intro s h hturn hst
  obtain ⟨g, hok, hy, hx, -⟩ := h.atPixel hst
  obtain ⟨hg, -, -, -, -, -, hraw, -⟩ := startChecks_ok hok
  have hphase : s.reg.phase = .assemble := by simpa [hst, phaseMatches_iff] using h.phase
  obtain ⟨hcode, -, -⟩ := (errorsMatch_iff_of_phase (h.phase_ne_error (by simp [hst]))).1 h.errors
  obtain ⟨t, hstep, hstored⟩ := step_pixel_stores hturn hst hg (by omega) (pixelInPix hok hx hy)
  obtain ⟨hseq, hreg⟩ := hstored.movedOn
  refine ⟨t, hstep, by rw [hreg]; exact hcode, ?_⟩
  by_cases hlast : (if s.seq.x + 1 = g.width then s.seq.y + 1 else s.seq.y) = g.height
  · right; simp [hreg, hseq, hlast]
  · left; simp [hreg, hseq, hlast, hphase]

end Sys2Proof.Machine
end

section
/-! PROOF. Exceptions (60_exceptions R110, R111, R113 to R116; O22 to O24, O49, O57, O58): the start checks as
equations, the errors an engine step can raise, and how a job fails, with what it leaves of RAW and PIX. -/

namespace Sys2Proof.Machine

/-! ## Raising an error -/

/-- Settles O24. -/
theorem raiseSetsTheErrorFieldsOnly : Obligations.RaiseSetsTheErrorFieldsOnly := by
  unfold Obligations.RaiseSetsTheErrorFieldsOnly
  intro e row value s hrow t
  have herrRow : t.reg.errRow.toNat = row := by
    rw [raiseError_errRow, BitVec.toNat_ofNat, Nat.mod_eq_of_lt hrow]
  exact ⟨rfl, herrRow, rfl, rfl, rfl, rfl, engineStep_halt (raiseError_stage e row value s)⟩

/-! ## The start checks -/

/-- The bit depths of 30_encoding R66, as a list of bytes. -/
theorem legalDepth_iff_mem (d : Byte) : legalDepth d = true ↔ d ∈ ([1, 2, 4, 8, 16] : List Byte) := by
  have hlegal : ∀ d ∈ ([1, 2, 4, 8, 16] : List Byte), legalDepth d = true := by decide
  refine ⟨fun h => ?_, hlegal d⟩
  have hd := toNat_of_legalDepth h
  simp only [List.mem_cons, List.not_mem_nil, or_false] at hd ⊢
  bv_omega

/-- The registers have a geometry exactly under the colour types of 40_resolver R72. -/
theorem geometry_eq_none_iff (r : Regs) : geometry r = none ↔ r.colorType ∉ ([0, 2, 3, 4, 6] : List Byte) := by
  have hbits : geometry r = none ↔ bitsPerPixel r.colorType r.bitDepth = none := by
    unfold geometry
    split <;> simp [*]
  rw [hbits, bitsPerPixel_eq]
  simp only [List.mem_cons, List.not_mem_nil, or_false]
  split_ifs <;> grind

/-- The first four start checks: those that need no geometry (60_exceptions R111). -/
def registersLegal (s : State) : Prop :=
  s.reg.width ≠ 0 ∧ s.reg.height ≠ 0 ∧ s.reg.bitDepth ∈ ([1, 2, 4, 8, 16] : List Byte) ∧
    s.reg.inLen.toNat ≤ s.params.inCap

/-- The last three start checks fail: the job would outgrow a store (60_exceptions R111). -/
abbrev outgrows (g : Geometry) (s : State) : Prop :=
  s.params.rowCap < scanLength g ∨ s.params.rawCap < rawLength g ∨ s.params.pixCap < 4 * pixelCount g

section
variable {s : State}

theorem startChecks_of_illegal (h : ¬ registersLegal s) : startChecks s = .error (.config, 0) := by
  unfold startChecks
  split_ifs with hwidth hheight hdepth hin
  · rfl
  · rfl
  · rfl
  · rfl
  · exact absurd ⟨hwidth, hheight, (legalDepth_iff_mem _).1 (by simpa using hdepth), Nat.not_lt.1 hin⟩ h

/-- Past the first four checks the colour type decides, and then the capacities. -/
theorem startChecks_of_legal (h : registersLegal s) :
    startChecks s = (geometry s.reg).elim (.error (.unknownColorType, s.reg.colorType)) fun g =>
      if outgrows g s then .error (.config, 0) else .ok g := by
  obtain ⟨hwidth, hheight, hdepth, hin⟩ := h
  simp only [startChecks, if_neg hwidth, if_neg hheight, (legalDepth_iff_mem _).2 hdepth, Bool.true_eq_false, if_false,
    if_neg (Nat.not_lt.2 hin)]
  cases geometry s.reg with
  | none => rfl
  | some g =>
    simp only [Option.elim_some]
    by_cases hbig : outgrows g s
    · rw [if_pos hbig]
      split_ifs
      · rfl
      · rfl
      · rfl
      · exact absurd hbig (by omega)
    · rw [if_neg hbig, if_neg (by omega), if_neg (by omega), if_neg (by omega)]

end

/-! ## CHECK -/

section
variable {s : State} (hturn : engineTurn s = true) (hst : s.seq.stage = .check)
include hturn hst

theorem step_eq_checkStep : step s = checkStep (afterTurn s) :=
  (step_engine hturn).trans (engineStep_check (s := afterTurn s) hst)

theorem step_of_startChecks_error {e : ErrCode × Byte} (he : startChecks s = .error e) :
    step s = .next (raiseError e.1 0 e.2 (afterTurn s)) := by
  simp only [step_eq_checkStep hturn hst, checkStep, startChecks_afterTurn, he]

theorem step_of_startChecks_ok {g : Geometry} (hok : startChecks s = .ok g) :
    step s = .next { writeBytes .prev 0 (List.replicate (scanLength g) 0) (afterTurn s) with
      seq := { s.seq with y := 0, stage := .rowFetch } } := by
  simp only [step_eq_checkStep hturn hst, checkStep, startChecks_afterTurn, hok, writeBytes_seq, afterTurn_seq]

end

/-- Settles O22: `startChecks_of_illegal` and `startChecks_of_legal` say which check is the first that fails. -/
theorem startChecksFailInOrder : Obligations.StartChecksFailInOrder := by
  unfold Obligations.StartChecksFailInOrder
  intro s hturn hst legal
  refine ⟨fun hlegal => ?_, fun hlegal hct => ?_, fun hlegal g hg hbig => ?_⟩
  · exact step_of_startChecks_error hturn hst (startChecks_of_illegal hlegal)
  · have hunknown : startChecks s = .error (.unknownColorType, s.reg.colorType) := by
      rw [startChecks_of_legal hlegal, (geometry_eq_none_iff _).2 hct, Option.elim_none]
    exact step_of_startChecks_error hturn hst hunknown
  · have hconfig : startChecks s = .error (.config, 0) := by
      rw [startChecks_of_legal hlegal, hg, Option.elim_some, if_pos hbig]
    exact step_of_startChecks_error hturn hst hconfig

/-- Settles O23: the registers have a geometry, and what CHECK writes is a run of zeros in PREV. -/
theorem checkZeroesThePreviousRow : Obligations.CheckZeroesThePreviousRow := by
  unfold Obligations.CheckZeroesThePreviousRow
  intro s hturn hst hwidth hheight hdepth hin hct
  have hlegal : registersLegal s := ⟨hwidth, hheight, hdepth, hin⟩
  obtain ⟨g, hg⟩ := Option.ne_none_iff_exists'.1 fun hnone => (geometry_eq_none_iff s.reg).1 hnone hct
  obtain ⟨hgw, hgh, hbits⟩ := geometry_some hg
  refine ⟨g, hg, hgw, hgh, hbits, fun hrow hraw hpix => ?_⟩
  have hfits : ¬ outgrows g s := by
    unfold outgrows
    omega
  have hok : startChecks s = .ok g := by
    rw [startChecks_of_legal hlegal, hg, Option.elim_some, if_neg hfits]
  refine ⟨hok, _, step_of_startChecks_ok hturn hst hok, rfl, fun i hi => ?_, fun i hi => ?_, rfl⟩
  · rw [readByte_withSeq, readByte_writeBytes, if_pos (by simp [hi])]
    simp
  · rw [readByte_withSeq, readByte_writeBytes, if_neg (by simp [hi]), afterTurn_readByte]

/-! ## The errors an engine step raises -/

/-- Only a reserved filter type decodes to BadFilter, and it does to itself (30_encoding R60). -/
theorem decodeFilter_badFilter {v w : Byte} (h : decodeFilter v = .badFilter w) : w = v ∧ 5 ≤ v.toNat := by
  rcases decodeFilter_cases v with ⟨-, i, hi⟩ | ⟨hge, hbad⟩
  · rw [hi] at h; cases h
  · rw [hbad] at h; cases h; exact ⟨rfl, hge⟩

theorem advanceCommit_phase (height : Nat) (s : State) :
    (advanceCommit height s).reg.phase = .assemble ∨ (advanceCommit height s).reg.phase = s.reg.phase := by
  rw [advanceCommit_eq]
  exact ite_eq_or_eq ..

theorem advancePixel_phase (g : Geometry) (s : State) :
    (advancePixel g s).reg.phase = .done ∨ (advancePixel g s).reg.phase = s.reg.phase := by
  rw [advancePixel_eq]
  exact ite_eq_or_eq ..

/-- A step of a stage that raises no error does not set PHASE to ERROR (10_state R31). -/
theorem phase_ne_error_of_other_stage {s t : State} (hphase : s.reg.phase ≠ .error) (h : engineStep s = .next t)
    (hcheck : s.seq.stage ≠ .check) (hfetch : s.seq.stage ≠ .rowFetch) (hasm : s.seq.stage ≠ .asmCheck) :
    t.reg.phase ≠ .error := by
  rcases engineStep_cases h with ⟨-, rfl⟩ | ⟨hst, -⟩ | ⟨hst, -⟩ | ⟨-, i, -, h⟩ | ⟨-, h⟩ | ⟨hst, -⟩ | ⟨-, h⟩
  · exact hphase
  · exact absurd hst hcheck
  · exact absurd hst hfetch
  · obtain ⟨g, -, -, rfl⟩ := exec_next h
    simpa [advanceRecon] using hphase
  · obtain ⟨g, -, -, -, rfl⟩ := commitStep_next h
    rcases advanceCommit_phase g.height _ with h | h <;> rw [h]
    · decide
    · simpa using hphase
  · exact absurd hst hasm
  · obtain ⟨g, -, -, -, rfl⟩ := pixelStep_next h
    obtain ⟨d, hd⟩ := samples_state g (bytesPerPixel g * (g.width * s.seq.y + s.seq.x)) s
    rcases advancePixel_phase g _ with h | h <;> rw [h]
    · decide
    · simpa [hd] using hphase

/-- Settles O49: CHECK, ROW_FETCH and ASM_CHECK either raise one of their errors or leave PHASE alone, and the other
stages raise none. -/
theorem errorsArePreciseAndListed : Obligations.ErrorsArePreciseAndListed := by
  unfold Obligations.ErrorsArePreciseAndListed
  intro s t hphase h herr
  cases hst : s.seq.stage
  case check =>
    rw [engineStep_check hst] at h
    rcases checkStep_next h with ⟨e, he, rfl⟩ | ⟨g, -, rfl⟩
    · refine ⟨_, _, _, rfl, .inl ⟨rfl, rfl, ?_⟩⟩
      rcases startChecks_error he with rfl | ⟨rfl, -⟩ <;> simp
    · exact absurd herr hphase
  case rowFetch =>
    rw [engineStep_rowFetch hst] at h
    obtain ⟨g, -, ⟨-, rfl⟩ | ⟨-, -, ⟨v, hv, rfl⟩ | ⟨i, -, -, rfl⟩⟩⟩ := rowFetchStep_next h
    · exact ⟨_, _, _, rfl, .inr (.inl ⟨rfl, rfl, .inl ⟨rfl, rfl⟩⟩)⟩
    · obtain ⟨rfl, hge⟩ := decodeFilter_badFilter hv
      exact ⟨_, _, _, rfl, .inr (.inl ⟨rfl, rfl, .inr ⟨rfl, hge⟩⟩)⟩
    · exact absurd herr hphase
  case asmCheck =>
    rw [engineStep_asmCheck hst] at h
    obtain ⟨g, -, ⟨-, rfl⟩ | ⟨-, rfl⟩⟩ := asmCheckStep_next h
    · exact absurd herr hphase
    · exact ⟨_, _, _, rfl, .inr (.inr ⟨rfl, rfl, rfl, rfl⟩)⟩
  all_goals exact absurd herr (phase_ne_error_of_other_stage hphase h (by simp [hst]) (by simp [hst]) (by simp [hst]))

/-! ## How a job fails -/

/-- The result of a job that fails: PIX and the draws are as they were (60_exceptions R114). -/
def failedJob (s : State) (e : ErrCode) (row : Nat) (value : Byte) (raw : Memory) : JobResult :=
  { phase := .error, errCode := e, errRow := row, errValue := value, raw := raw, pix := s.pix, draws := s.draws }

/-- How a job can end (42_assembler R104): a start check, a row or the assembler's range fails, or it is done. -/
theorem jobFunction_cases (s : State) :
    (∃ e, startChecks s = .error e ∧ jobFunction s = failedJob s e.1 0 e.2 s.raw) ∨
    ∃ g, startChecks s = .ok g ∧
      ((∃ code row value, (defilterStage g s).error = some (code, row, value) ∧
          jobFunction s = failedJob s code row value (defilterStage g s).raw) ∨
       ((defilterStage g s).error = none ∧ ¬ assemblerFits s.params.asmOobPolicy g = true ∧
          jobFunction s = failedJob s .rangeAssemble 0 0 (defilterStage g s).raw) ∨
       ((defilterStage g s).error = none ∧ assemblerFits s.params.asmOobPolicy g = true ∧
          (jobFunction s).phase = .done ∧ (jobFunction s).errCode = .none)) := by
  cases hok : startChecks s with
  | error e => exact .inl ⟨e, rfl, by simp only [jobFunction, hok, failedJob]⟩
  | ok g =>
    refine .inr ⟨g, rfl, ?_⟩
    cases hd : (defilterStage g s).error with
    | some e => exact .inl ⟨e.1, e.2.1, e.2.2, rfl, by simp only [jobFunction, hok, hd, failedJob]⟩
    | none =>
      by_cases hfits : assemblerFits s.params.asmOobPolicy g = true
      · exact .inr (.inr ⟨rfl, hfits, by simp only [jobFunction, hok, hd, if_pos hfits, and_self]⟩)
      · exact .inr (.inl ⟨rfl, hfits, by simp only [jobFunction, hok, hd, if_neg hfits, failedJob]⟩)

/-- A row is wholly in the input and carries a legal filter type (41_defilter R80, R81). -/
def rowGood (g : Geometry) (inp : Nat → Byte) (inLen row : Nat) : Prop :=
  row * rowStride g + rowStride g ≤ inLen ∧ (inp (row * rowStride g)).toNat < 5

/-- The error of a row that is not good, the range before the filter type (41_defilter R80, R81; 60_exceptions R116). -/
def rowError (g : Geometry) (inp : Nat → Byte) (inLen row : Nat) (code : ErrCode) (value : Byte) : Prop :=
  (code = .rangeDefilter ∧ value = 0 ∧ inLen < row * rowStride g + rowStride g) ∨
  (code = .badFilter ∧ value = inp (row * rowStride g) ∧ row * rowStride g + rowStride g ≤ inLen ∧ 5 ≤ value.toNat)

/-- How the row loop over the given number of rows from row y on, which found raw in RAW and left raw', failed at a row:
every earlier row is good, and RAW is untouched from the failing row's first byte up. -/
structure RowLoopFails (g : Geometry) (inp : Nat → Byte) (inLen rows y : Nat) (raw raw' : Memory) (code : ErrCode)
    (row : Nat) (value : Byte) : Prop where
  reached : y ≤ row
  inImage : row < y + rows
  earlier : ∀ k, y ≤ k → k < row → rowGood g inp inLen k
  cause : rowError g inp inLen row code value
  kept : ∀ a, row * scanLength g ≤ a → Memory.find raw' a = Memory.find raw a

section
variable {g : Geometry} {inp : Nat → Byte} {inLen y row : Nat} {raw raw' : Memory} {code : ErrCode} {value : Byte}

/-- The first row of the loop fails it. -/
theorem RowLoopFails.here (rows : Nat) (raw : Memory) (h : rowError g inp inLen y code value) :
    RowLoopFails g inp inLen (rows + 1) y raw raw code y value where
  reached := Nat.le_refl y
  inImage := by omega
  earlier k hk hk' := by omega
  cause := h
  kept _ _ := rfl

/-- A later row fails the loop after a good row has been written. -/
theorem RowLoopFails.later {rows : Nat} {bytes : List Byte} (hgood : rowGood g inp inLen y)
    (hlen : bytes.length = scanLength g)
    (h : RowLoopFails g inp inLen rows (y + 1) (Memory.writeList raw (y * scanLength g) bytes) raw' code row value) :
    RowLoopFails g inp inLen (rows + 1) y raw raw' code row value where
  reached := by have := h.reached; omega
  inImage := by have := h.inImage; omega
  earlier k hk hk' := by
    rcases Nat.eq_or_lt_of_le hk with rfl | hlt
    · exact hgood
    · exact h.earlier k hlt hk'
  cause := h.cause
  kept a ha := by
    have hend : (y + 1) * scanLength g ≤ row * scanLength g := Nat.mul_le_mul_right _ h.reached
    rw [Nat.succ_mul] at hend
    rw [h.kept a ha, find_writeList, if_neg (by omega)]

/-- What an error of the row loop says (41_defilter R86; 60_exceptions R116). -/
theorem defilterRows_error {aw : AvgSumWidth} (rows : Nat) : ∀ {y : Nat} {prev : List Byte} {raw : Memory},
    (defilterRows aw g inp inLen rows y prev raw).error = some (code, row, value) →
    RowLoopFails g inp inLen rows y raw (defilterRows aw g inp inLen rows y prev raw).raw code row value := by
  induction rows with
  | zero => intro y prev raw h; cases h
  | succ rows ih =>
    intro y prev raw h
    rw [defilterRows] at h ⊢
    split at h
    · next hshort =>
      cases h
      rw [if_pos hshort]
      exact .here rows raw (.inl ⟨rfl, rfl, hshort⟩)
    · next hin =>
      rw [if_neg hin]
      rcases decodeFilter_cases (inp (y * rowStride g)) with ⟨hlt, ft, hft⟩ | ⟨hge, hbad⟩
      · simp only [hft] at h ⊢
        exact (ih h).later ⟨by omega, hlt⟩ (by simp [reconRow])
      · simp only [hbad] at h ⊢
        cases h
        exact .here rows raw (.inr ⟨rfl, rfl, by omega, hge⟩)

/-- What an error of the defilter stage says of its row. -/
theorem defilterStage_error {s : State} (h : (defilterStage g s).error = some (code, row, value)) :
    RowLoopFails g (fun a => readByte .inp a s) s.reg.inLen.toNat g.height 0 s.raw (defilterStage g s).raw code row
      value :=
  defilterRows_error g.height h

end

/-- Settles O57: no failing job writes PIX; RAW is kept by `defilterStage_error` after a row error, and by
`filledBelow_defilterStage` when all rows were written. -/
theorem failedJobKeepsTheRest : Obligations.FailedJobKeepsTheRest := by
  unfold Obligations.FailedJobKeepsTheRest
  intro s herr
  obtain ⟨e, -, hjob⟩ | ⟨g, hok, ⟨code, row, value, hd, hjob⟩ | ⟨hd, -, hjob⟩ | ⟨-, -, hdone, -⟩⟩ := jobFunction_cases s
  · rw [hjob]
    exact ⟨rfl, fun _ => rfl, fun _ _ _ _ _ => rfl, fun _ _ _ _ _ => rfl⟩
  · have hfails := defilterStage_error hd
    rw [hjob]
    refine ⟨rfl, fun hcode => ?_, fun g' hg' _ a ha => ?_, fun _ _ hcode => ?_⟩
    · rcases hfails.cause with ⟨rfl, -⟩ | ⟨rfl, -⟩ <;> simp [failedJob] at hcode
    · obtain rfl := eq_of_startChecks_ok hok hg'
      exact hfails.kept a ha
    · rcases hfails.cause with ⟨rfl, -⟩ | ⟨rfl, -⟩ <;> cases hcode
  · rw [hjob]
    refine ⟨rfl, fun hcode => ?_, fun _ _ hcode => ?_, fun g' hg' _ a ha => ?_⟩
    · simp [failedJob] at hcode
    · simp [failedJob] at hcode
    · obtain rfl := eq_of_startChecks_ok hok hg'
      exact (filledBelow_defilterStage hd s.raw s.pix).2.kept a ha
  · rw [hdone] at herr
    cases herr

/-- Settles O58: only a row gives these codes, and the loop that reached it had passed every earlier one. -/
theorem firstErrorWins : Obligations.FirstErrorWins := by
  unfold Obligations.FirstErrorWins
  intro s g hok hcode
  obtain ⟨e, he, -⟩ | ⟨g', hok', ⟨code, row, value, hd, hjob⟩ | ⟨-, -, hjob⟩ | ⟨-, -, -, hnone⟩⟩ := jobFunction_cases s
  · rw [hok] at he
    cases he
  · obtain rfl : g' = g := eq_of_startChecks_ok hok (startChecks_ok hok').1
    obtain ⟨-, hrow, hearlier, hcause, -⟩ := defilterStage_error hd
    rw [Nat.zero_add] at hrow
    rw [hjob]
    refine ⟨hrow, fun y hy => hearlier y (Nat.zero_le y) hy, fun hbad => ?_, fun hrange => ?_⟩
    · obtain ⟨rfl, -⟩ | ⟨-, hvalue, hin, hge⟩ := hcause
      · cases hbad
      · exact ⟨hin, hvalue, hge⟩
    · obtain ⟨-, -, hshort⟩ | ⟨rfl, -⟩ := hcause
      · exact hshort
      · cases hrange
  · simp [hjob, failedJob] at hcode
  · simp [hnone] at hcode

end Sys2Proof.Machine
end

section
/-! PROOF. A reset at any moment (70_reset R127; O2), and the length of a complete job's run (70_reset R137; O55). -/

namespace Sys2Proof.Machine

/-! ## Reset -/

/-- When a reset comes next, the step is the reset: the interrupted job is gone, whatever its stage. -/
theorem step_reset {s : State} {rest : List Turn} (h : s.agenda = .host .reset :: rest) :
    step s = .next (platformReset { s with agenda := rest }) :=
  step_host h

@[simp] theorem platformReset_memOf (sp : Space) (s : State) : memOf sp (platformReset s) = [] := by cases sp <;> rfl

/-- After a reset every byte is the free value of the new epoch (10_state R35, log entry 4). -/
theorem readByte_platformReset (sp : Space) (a : Nat) (s : State) :
    readByte sp a (platformReset s) = Config.unwritten sp (s.epoch + 1) a :=
  readByte_unwritten (platformReset_memOf sp s) a

/-- Settles O2: the step is `platformReset`, which empties every store, and in its stage HALT no engine step runs. -/
theorem assertedResetAbandonsTheJob : Obligations.AssertedResetAbandonsTheJob := by
  unfold Obligations.AssertedResetAbandonsTheJob
  intro s rest hagenda
  exact ⟨platformReset { s with agenda := rest }, step_reset hagenda, readRegister_reset, rfl, rfl, rfl,
    fun sp a => readByte_platformReset sp a _, rfl, rfl, engineStep_halt rfl⟩

/-! ## The steps of a complete job -/

/-- Settles O55: a job function that ends in DONE means good rows and an image that fits, and `completeJob_reaches` then
counts the steps up to HALT, of which none is taken from HALT. -/
theorem completeJobStepCount : Obligations.CompleteJobStepCount := by
  unfold Obligations.CompleteJobStepCount
  intro s g hs hok hdone
  obtain ⟨hrows, hfits, -, -⟩ := jobFunction_done hok hdone
  obtain ⟨t, ⟨hrun, hbefore⟩, hhalt, hphase, -⟩ := completeJob_reaches hs hok hrows hfits
  exact ⟨⟨t, hrun, hhalt, hphase.trans hdone⟩, hbefore⟩

end Sys2Proof.Machine
end
